-- ==== Sys2Proof/Word.lean ====
section
/-! DEFINITION. The machine's words: 8-bit data, 16-bit addresses and opcodes (spec R5, R90), and the index types of the
16 general registers and the 16 keys (R21, R30). -/

namespace Sys2Proof

/-- A data register, a timer, a memory cell: 8 bits (R5, R21, R27, R31). -/
abbrev Byte := BitVec 8

/-- `I`, `pc` and a call-stack entry: 16 bits (R24, R25, R26). -/
abbrev Addr := BitVec 16

/-- A fetched instruction word: 16 bits (R90). -/
abbrev Opcode := BitVec 16

/-- The index of a general register, V0 to VF (R21). Every value of a 4-bit field names one (R94). -/
abbrev RegIdx := Fin 16

/-- The index of a key, 0x0 to 0xF (R30). -/
abbrev KeyIdx := Fin 16

/-- The number of addressable bytes: addresses 0x000 to 0xFFF (R60). -/
abbrev memorySize : Nat := 0x1000

/-- The first address of the program image and the reset value of `pc` (R5, R62). -/
abbrev programBase : Nat := 0x200

/-- The largest program image, 4096 − 512 bytes (R5). -/
abbrev maxImage : Nat := 3584

end Sys2Proof
end

