-- ==== Sys2Proof/Config.lean ====
section
/-! DEFINITION. What the spec leaves open (R6, 92_eei_decisions.md): six named parameters the model takes as an argument
(a plain record, carried by State and changed by nothing, log entry 1), and the two draws, which are free values without a
body (log entries 2 and 3). -/

namespace Sys2Proof

/-- `SHIFT_SOURCE`: which register 8XY6 and 8XYE shift (R6, R208, R210; D3). -/
inductive ShiftSource where
  | vx
  | vy
deriving DecidableEq, Repr

/-- `LOADSTORE_INCREMENT_I`: what FX55 and FX65 leave in `I` (R6, R254; D7). -/
inductive LoadStoreIncrement where
  | none
  | xPlus1
  | x
deriving DecidableEq, Repr

/-- `ZERO_HEIGHT_DRAW`: whether DXY0 is an unknown opcode or an empty draw (R6, R95, R282; D8). -/
inductive ZeroHeightDraw where
  | unknown
  | empty
deriving DecidableEq, Repr

/-- `RESERVED_WRITE`: whether an instruction's write below 0x200 fails (R6, R64; D13). -/
inductive ReservedWritePolicy where
  | fault
  | allow
deriving DecidableEq, Repr

/-- `KEY_INDEX`: what EX9E and EXA1 do with a register value above 0xF (R6, R306; D18). -/
inductive KeyIndexPolicy where
  | fault
  | lowNibble
deriving DecidableEq, Repr

/-- The 80 bytes of `FONT`: 16 glyphs of 5 bytes, glyph `d` at `d × 5` (R63; D21). -/
abbrev Font := Vector Byte 80

/-- The parameters of R6. -/
structure Config where
  shiftSource : ShiftSource
  loadStoreIncrement : LoadStoreIncrement
  zeroHeightDraw : ZeroHeightDraw
  reservedWrite : ReservedWritePolicy
  keyIndex : KeyIndexPolicy
  font : Font
deriving DecidableEq, Repr

/-- The default `FONT`, the table of R63. PRESUMED (the spec marks these bytes as general knowledge, GK4; log entry 4):
no statement rests on them. -/
def Config.defaultFont : Font :=
  #v[0xF0, 0x90, 0x90, 0x90, 0xF0,
     0x20, 0x60, 0x20, 0x20, 0x70,
     0xF0, 0x10, 0xF0, 0x80, 0xF0,
     0xF0, 0x10, 0xF0, 0x10, 0xF0,
     0x90, 0x90, 0xF0, 0x10, 0x10,
     0xF0, 0x80, 0xF0, 0x10, 0xF0,
     0xF0, 0x80, 0xF0, 0x90, 0xF0,
     0xF0, 0x10, 0x20, 0x40, 0x40,
     0xF0, 0x90, 0xF0, 0x90, 0xF0,
     0xF0, 0x90, 0xF0, 0x10, 0xF0,
     0xF0, 0x90, 0xF0, 0x90, 0x90,
     0xE0, 0x90, 0xE0, 0x90, 0xE0,
     0xF0, 0x80, 0x80, 0x80, 0xF0,
     0xE0, 0x90, 0x90, 0x90, 0xE0,
     0xF0, 0x80, 0xF0, 0x80, 0xF0,
     0xF0, 0x80, 0xF0, 0x80, 0x80]

/-- The default of every parameter (R6, last column but one). -/
def Config.default : Config where
  shiftSource := .vx
  loadStoreIncrement := .none
  zeroHeightDraw := .unknown
  reservedWrite := .fault
  keyIndex := .fault
  font := Config.defaultFont

/-- The draw `rnd` of the n-th draw of a run (R33, R211; D19): any byte, with no law on it. A free value: it has no body,
so no proof can rest on what it is. -/
opaque Config.rnd : Nat → Byte

/-- The draw `key_choice` of the n-th draw of a run, among the keys that are pressed (R303; D17): read modulo the number
of pressed keys, so it names any of them. A free value: it has no body, so no proof can rest on what it is. -/
opaque Config.keyChoice : Nat → List KeyIdx → Nat

end Sys2Proof
end

