-- ==== Sys2Proof/Syntax.lean ====
section
/-! DEFINITION. The 34 instructions (R96), one constructor per row of the opcode table, in the table's order. `x` and `y`
name registers, `nn` an 8-bit literal, `nnn` a 12-bit literal address, `n` a sprite height of 0 to 15 (R91, R93, R94). -/

namespace Sys2Proof

/-- The decoded instructions of R95 and R96. -/
inductive Instr where
  /-- `00E0` CLS (R281). -/
  | cls
  /-- `00EE` RET (R160). -/
  | ret
  /-- `1NNN` JP addr (R161). -/
  | jp (nnn : BitVec 12)
  /-- `2NNN` CALL addr (R162). -/
  | call (nnn : BitVec 12)
  /-- `3XNN` SE Vx, byte (R180). -/
  | seImm (x : RegIdx) (nn : Byte)
  /-- `4XNN` SNE Vx, byte (R181). -/
  | sneImm (x : RegIdx) (nn : Byte)
  /-- `5XY0` SE Vx, Vy (R182). -/
  | seReg (x y : RegIdx)
  /-- `6XNN` LD Vx, byte (R200). -/
  | ldImm (x : RegIdx) (nn : Byte)
  /-- `7XNN` ADD Vx, byte (R201). -/
  | addImm (x : RegIdx) (nn : Byte)
  /-- `8XY0` LD Vx, Vy (R202). -/
  | ldReg (x y : RegIdx)
  /-- `8XY1` OR Vx, Vy (R203). -/
  | orReg (x y : RegIdx)
  /-- `8XY2` AND Vx, Vy (R204). -/
  | andReg (x y : RegIdx)
  /-- `8XY3` XOR Vx, Vy (R205). -/
  | xorReg (x y : RegIdx)
  /-- `8XY4` ADD Vx, Vy (R206). -/
  | addReg (x y : RegIdx)
  /-- `8XY5` SUB Vx, Vy (R207). -/
  | sub (x y : RegIdx)
  /-- `8XY6` SHR Vx, Vy (R208). -/
  | shr (x y : RegIdx)
  /-- `8XY7` SUBN Vx, Vy (R209). -/
  | subn (x y : RegIdx)
  /-- `8XYE` SHL Vx, Vy (R210). -/
  | shl (x y : RegIdx)
  /-- `9XY0` SNE Vx, Vy (R183). -/
  | sneReg (x y : RegIdx)
  /-- `ANNN` LD I, addr (R250). -/
  | ldI (nnn : BitVec 12)
  /-- `BNNN` JP V0, addr (R163). -/
  | jpV0 (nnn : BitVec 12)
  /-- `CXNN` RND Vx, byte (R211). -/
  | rnd (x : RegIdx) (nn : Byte)
  /-- `DXYN` DRW Vx, Vy, nibble (R282). -/
  | drw (x y : RegIdx) (n : Fin 16)
  /-- `EX9E` SKP Vx (R300). -/
  | skp (x : RegIdx)
  /-- `EXA1` SKNP Vx (R301). -/
  | sknp (x : RegIdx)
  /-- `FX07` LD Vx, DT (R302). -/
  | ldVxDt (x : RegIdx)
  /-- `FX0A` LD Vx, K (R303). -/
  | ldVxK (x : RegIdx)
  /-- `FX15` LD DT, Vx (R304). -/
  | ldDtVx (x : RegIdx)
  /-- `FX18` LD ST, Vx (R305). -/
  | ldStVx (x : RegIdx)
  /-- `FX1E` ADD I, Vx (R251). -/
  | addIVx (x : RegIdx)
  /-- `FX29` LD F, Vx (R252). -/
  | ldFVx (x : RegIdx)
  /-- `FX33` LD B, Vx (R253). -/
  | ldBVx (x : RegIdx)
  /-- `FX55` LD [I], Vx (R254). -/
  | ldMemVx (x : RegIdx)
  /-- `FX65` LD Vx, [I] (R255). -/
  | ldVxMem (x : RegIdx)
deriving DecidableEq, Repr

end Sys2Proof
end

