-- ==== Sys2Proof/Decode.lean ====
section
/-! DEFINITION. Decoding (R91 to R98) and, after it, encoding. `decode` is the function of R95: total over all opcodes,
strict (D2), and every value outside the map of R96 is rejected by name. `encode` is written from the layouts of R92. -/

namespace Sys2Proof

/-- Why bytes do not decode. -/
inductive DecodeError where
  /-- R95, R97: the opcode is outside the map of R96. -/
  | unknown (op : Opcode)
  /-- R90: a decoder consumes exactly two bytes. -/
  | notTwoBytes
deriving DecidableEq, Repr

/-- A 4-bit field as a number 0 to 15. -/
def nibbleIdx (b : BitVec 4) : Fin 16 := ⟨b.toNat, b.isLt⟩

/-- A number 0 to 15 as a 4-bit field. -/
def idxNibble (k : Fin 16) : BitVec 4 := BitVec.ofNat 4 k.val

/-! ### The fields of R91 -/

/-- `t = op[15:12]`. -/
def fieldT (op : Opcode) : BitVec 4 := op.extractLsb' 12 4
/-- `x = op[11:8]`. -/
def fieldX (op : Opcode) : RegIdx := nibbleIdx (op.extractLsb' 8 4)
/-- `y = op[7:4]`. -/
def fieldY (op : Opcode) : RegIdx := nibbleIdx (op.extractLsb' 4 4)
/-- `n = op[3:0]`. -/
def fieldN (op : Opcode) : BitVec 4 := op.extractLsb' 0 4
/-- `nn = op[7:0]`. -/
def fieldNN (op : Opcode) : Byte := op.extractLsb' 0 8
/-- `nnn = op[11:0]`. -/
def fieldNNN (op : Opcode) : BitVec 12 := op.extractLsb' 0 12

/-! ### The decode function of R95 -/

/-- The 8-group: `n` selects the ALU operation (R95, t = 0x8). -/
def decodeAlu (op : Opcode) (x y : RegIdx) : BitVec 4 → Except DecodeError Instr
  | 0x0#4 => .ok (.ldReg x y)
  | 0x1#4 => .ok (.orReg x y)
  | 0x2#4 => .ok (.andReg x y)
  | 0x3#4 => .ok (.xorReg x y)
  | 0x4#4 => .ok (.addReg x y)
  | 0x5#4 => .ok (.sub x y)
  | 0x6#4 => .ok (.shr x y)
  | 0x7#4 => .ok (.subn x y)
  | 0xE#4 => .ok (.shl x y)
  | _ => .error (.unknown op)

/-- The E-group: `nn` selects the keypad skip (R95, t = 0xE). -/
def decodeKey (op : Opcode) (x : RegIdx) : Byte → Except DecodeError Instr
  | 0x9E#8 => .ok (.skp x)
  | 0xA1#8 => .ok (.sknp x)
  | _ => .error (.unknown op)

/-- The F-group: `nn` selects the operation (R95, t = 0xF). -/
def decodeMisc (op : Opcode) (x : RegIdx) : Byte → Except DecodeError Instr
  | 0x07#8 => .ok (.ldVxDt x)
  | 0x0A#8 => .ok (.ldVxK x)
  | 0x15#8 => .ok (.ldDtVx x)
  | 0x18#8 => .ok (.ldStVx x)
  | 0x1E#8 => .ok (.addIVx x)
  | 0x29#8 => .ok (.ldFVx x)
  | 0x33#8 => .ok (.ldBVx x)
  | 0x55#8 => .ok (.ldMemVx x)
  | 0x65#8 => .ok (.ldVxMem x)
  | _ => .error (.unknown op)

/-- `t = 0x0`: only 0x00E0 and 0x00EE are instructions (R95, R98; D2). -/
def decodeZero (op : Opcode) : Except DecodeError Instr :=
  if op = 0x00E0 then .ok .cls
  else if op = 0x00EE then .ok .ret
  else .error (.unknown op)

/-- `t = 0xD`: height 0 is an instruction only under `ZERO_HEIGHT_DRAW = empty` (R95; D8). -/
def decodeDraw (zh : ZeroHeightDraw) (op : Opcode) : Except DecodeError Instr :=
  if fieldN op = 0 ∧ zh = .unknown then .error (.unknown op)
  else .ok (.drw (fieldX op) (fieldY op) (nibbleIdx (fieldN op)))

/-- `decode(op)` of R95. -/
def decode (zh : ZeroHeightDraw) (op : Opcode) : Except DecodeError Instr :=
  match fieldT op with
  | 0x0#4 => decodeZero op
  | 0x1#4 => .ok (.jp (fieldNNN op))
  | 0x2#4 => .ok (.call (fieldNNN op))
  | 0x3#4 => .ok (.seImm (fieldX op) (fieldNN op))
  | 0x4#4 => .ok (.sneImm (fieldX op) (fieldNN op))
  | 0x5#4 => if fieldN op = 0 then .ok (.seReg (fieldX op) (fieldY op)) else .error (.unknown op)
  | 0x6#4 => .ok (.ldImm (fieldX op) (fieldNN op))
  | 0x7#4 => .ok (.addImm (fieldX op) (fieldNN op))
  | 0x8#4 => decodeAlu op (fieldX op) (fieldY op) (fieldN op)
  | 0x9#4 => if fieldN op = 0 then .ok (.sneReg (fieldX op) (fieldY op)) else .error (.unknown op)
  | 0xA#4 => .ok (.ldI (fieldNNN op))
  | 0xB#4 => .ok (.jpV0 (fieldNNN op))
  | 0xC#4 => .ok (.rnd (fieldX op) (fieldNN op))
  | 0xD#4 => decodeDraw zh op
  | 0xE#4 => decodeKey op (fieldX op) (fieldNN op)
  | 0xF#4 => decodeMisc op (fieldX op) (fieldNN op)
  | _ => .error (.unknown op)

/-- The opcode of two consecutive bytes, big-endian: the byte at the lower address is the high byte (R66). -/
def composeOpcode (hi lo : Byte) : Opcode := hi ++ lo

/-- Decoding of bytes: exactly two, high byte first (R66, R90). -/
def decodeBytes (zh : ZeroHeightDraw) : List Byte → Except DecodeError Instr
  | [hi, lo] => decode zh (composeOpcode hi lo)
  | _ => .error .notTwoBytes

/-! ### The encoder: the layouts of R92 with the constants of R96 -/

/-- Formats `XYN` and, with two fixed nibbles, `FIXED` (R92). -/
def layoutXYN (t x y n : BitVec 4) : Opcode := t ++ x ++ y ++ n
/-- Formats `XNN` and `XSUB` (R92). -/
def layoutXNN (t x : BitVec 4) (nn : BitVec 8) : Opcode := t ++ x ++ nn
/-- Format `NNN` (R92). -/
def layoutNNN (t : BitVec 4) (nnn : BitVec 12) : Opcode := t ++ nnn

/-- The one opcode of an instruction (R92, R96). -/
def encode : Instr → Opcode
  | .cls => layoutXYN 0x0 0x0 0xE 0x0
  | .ret => layoutXYN 0x0 0x0 0xE 0xE
  | .jp nnn => layoutNNN 0x1 nnn
  | .call nnn => layoutNNN 0x2 nnn
  | .seImm x nn => layoutXNN 0x3 (idxNibble x) nn
  | .sneImm x nn => layoutXNN 0x4 (idxNibble x) nn
  | .seReg x y => layoutXYN 0x5 (idxNibble x) (idxNibble y) 0x0
  | .ldImm x nn => layoutXNN 0x6 (idxNibble x) nn
  | .addImm x nn => layoutXNN 0x7 (idxNibble x) nn
  | .ldReg x y => layoutXYN 0x8 (idxNibble x) (idxNibble y) 0x0
  | .orReg x y => layoutXYN 0x8 (idxNibble x) (idxNibble y) 0x1
  | .andReg x y => layoutXYN 0x8 (idxNibble x) (idxNibble y) 0x2
  | .xorReg x y => layoutXYN 0x8 (idxNibble x) (idxNibble y) 0x3
  | .addReg x y => layoutXYN 0x8 (idxNibble x) (idxNibble y) 0x4
  | .sub x y => layoutXYN 0x8 (idxNibble x) (idxNibble y) 0x5
  | .shr x y => layoutXYN 0x8 (idxNibble x) (idxNibble y) 0x6
  | .subn x y => layoutXYN 0x8 (idxNibble x) (idxNibble y) 0x7
  | .shl x y => layoutXYN 0x8 (idxNibble x) (idxNibble y) 0xE
  | .sneReg x y => layoutXYN 0x9 (idxNibble x) (idxNibble y) 0x0
  | .ldI nnn => layoutNNN 0xA nnn
  | .jpV0 nnn => layoutNNN 0xB nnn
  | .rnd x nn => layoutXNN 0xC (idxNibble x) nn
  | .drw x y n => layoutXYN 0xD (idxNibble x) (idxNibble y) (idxNibble n)
  | .skp x => layoutXNN 0xE (idxNibble x) 0x9E
  | .sknp x => layoutXNN 0xE (idxNibble x) 0xA1
  | .ldVxDt x => layoutXNN 0xF (idxNibble x) 0x07
  | .ldVxK x => layoutXNN 0xF (idxNibble x) 0x0A
  | .ldDtVx x => layoutXNN 0xF (idxNibble x) 0x15
  | .ldStVx x => layoutXNN 0xF (idxNibble x) 0x18
  | .addIVx x => layoutXNN 0xF (idxNibble x) 0x1E
  | .ldFVx x => layoutXNN 0xF (idxNibble x) 0x29
  | .ldBVx x => layoutXNN 0xF (idxNibble x) 0x33
  | .ldMemVx x => layoutXNN 0xF (idxNibble x) 0x55
  | .ldVxMem x => layoutXNN 0xF (idxNibble x) 0x65

/-- The high byte of an opcode, the one at the lower address (R66). -/
def opcodeHigh (op : Opcode) : Byte := op.extractLsb' 8 8
/-- The low byte of an opcode. -/
def opcodeLow (op : Opcode) : Byte := op.extractLsb' 0 8

/-- The opcode that the opcode table numbers as `w` with `nbits` bits: every bit at or above `nbits` is 0. -/
def tableOpcode (nbits w : Nat) : Opcode := BitVec.ofNat 16 (w % 2 ^ nbits)

/-- The instruction the decoder reads from a word of the opcode table, under the default `ZERO_HEIGHT_DRAW`. -/
def decodeTableWord (nbits w : Nat) : Option Instr :=
  (decodeBytes Config.default.zeroHeightDraw
    [opcodeHigh (tableOpcode nbits w), opcodeLow (tableOpcode nbits w)]).toOption

end Sys2Proof
end

