-- ==== Sys2Proof/Machine/Flags.lean ====
section
/-! DEFINITION. The values the flag-writing instructions leave in VF (R22, R206 to R210, R282). All arithmetic is unsigned
(R10, R212). -/

namespace Sys2Proof.Machine

/-- A condition as the byte 1 or 0. -/
def flagOf (c : Bool) : Byte := if c then 1 else 0

/-- 8XY4: 1 exactly when the unsigned sum exceeds 255 (R206). -/
def carryFlag (a b : Byte) : Byte := flagOf (decide (255 < a.toNat + b.toNat))

/-- 8XY5 and, with its operands swapped, 8XY7: 0 exactly when the minuend is less than the subtrahend (R207, R209; C1). -/
def notBorrowFlag (minuend subtrahend : Byte) : Byte :=
  flagOf (!decide (minuend.toNat < subtrahend.toNat))

/-- 8XY6: the bit shifted out, bit 0 of the operand (R208). -/
def shiftedOutLow (s : Byte) : Byte := s &&& 1

/-- 8XYE: the bit shifted out, bit 7 of the operand (R210). -/
def shiftedOutHigh (s : Byte) : Byte := s >>> 7

end Sys2Proof.Machine
end

