-- ==== Sys2Proof/Machine/Memory.lean ====
section
/-! DEFINITION. Memory as plain data (R31, R60 to R62): the bytes that differ from the reset contents, listed in rising
address order. An address that is not listed reads as `initialize()` leaves it: the font below 0x050, and 0 elsewhere
(R380). Range and reserved-region checks are in Ops.lean; here every function is total. -/

namespace Sys2Proof.Machine

/-- The bytes that differ from the reset contents, by rising address. -/
abbrev Memory := List Host.Cell

/-- What an unlisted address reads as: the reset contents of R62, R63 and R380. -/
def Memory.unlisted (font : Font) (a : Nat) : Byte :=
  if h : a < 80 then font[a] else 0

/-- The byte at an address. -/
def Memory.read (font : Font) : Memory → Nat → Byte
  | [], a => Memory.unlisted font a
  | (k, b) :: m, a => if a = k then b else Memory.read font m a

/-- List a byte at its place in the rising order, in place of any byte listed there. -/
def Memory.insert (a : Nat) (v : Byte) : Memory → Memory
  | [] => [(a, v)]
  | (k, b) :: m =>
    if a < k then (a, v) :: (k, b) :: m
    else if a = k then (a, v) :: m
    else (k, b) :: Memory.insert a v m

/-- Take an address off the list. -/
def Memory.erase (a : Nat) : Memory → Memory
  | [] => []
  | (k, b) :: m => if a = k then Memory.erase a m else (k, b) :: Memory.erase a m

/-- Write one byte, keeping the canonical form: the value an unlisted address reads as is not listed. -/
def Memory.write (font : Font) (m : Memory) (a : Nat) (v : Byte) : Memory :=
  if v = Memory.unlisted font a then Memory.erase a m else Memory.insert a v m

/-- Write consecutive bytes from an address upward. -/
def Memory.writeAll (font : Font) (m : Memory) (a : Nat) : List Byte → Memory
  | [] => m
  | b :: bs => Memory.writeAll font (Memory.write font m a b) (a + 1) bs

/-- The canonical form: addresses strictly rising, inside the address space (R60), and no entry equal to what an unlisted
address reads as. -/
def Memory.wf (font : Font) (m : Memory) : Bool :=
  decide ((m.map Prod.fst).Pairwise (· < ·)) &&
    m.all fun c => decide (c.1 < memorySize) && c.2 != Memory.unlisted font c.1

end Sys2Proof.Machine
end

