-- ==== Sys2Proof/Machine/State.lean ====
section
/-! DEFINITION. The state tuple of R20 as plain data, with the error record of R330, the outcomes of a step (R130) and of a
load (R333), and the machine right after `initialize()` (R380). Two fields are the model's own: `cfg`, the parameters of
R6, which nothing changes (log entry 1), and `draws`, the number of draws taken so far (log entries 2 and 3). -/

namespace Sys2Proof.Machine

/-- A step error with its information (R330, codes 2 to 7). -/
inductive StepError where
  /-- Code 2 (R331): the opcode decodes to no instruction. -/
  | unknownOpcode (op : Opcode)
  /-- Code 3 (R332): 00EE with an empty stack. -/
  | stackUnderflow
  /-- Code 4 (R334): 2NNN with 16 entries in use. -/
  | stackOverflow
  /-- Code 5 (R335): a fetch or a data access at an address of 0x1000 or above. -/
  | addressOutOfRange (a : Nat)
  /-- Code 6 (R336): FX33 or FX55 writing below 0x200 under `RESERVED_WRITE = fault`. -/
  | reservedWrite (a : Nat)
  /-- Code 7 (R337): EX9E or EXA1 with a register value above 0xF under `KEY_INDEX = fault`. -/
  | keyIndexOutOfRange (v : Byte)
deriving DecidableEq, Repr

/-- The error of `load_program` (R333, code 1): the length of the rejected image. -/
inductive LoadError where
  | imageTooLarge (length : Nat)
deriving DecidableEq, Repr

/-- The record of a step error (R330): the error with its information, the opcode (none for a fetch fault) and the pc of
the instruction that failed, or the fetch address. -/
structure ErrorRecord where
  error : StepError
  op : Option Opcode
  pc : Addr
deriving DecidableEq, Repr

/-- What `step()` returns to the host (R130): `Ok(tone_expired)` or `Err(e)`. -/
inductive StepResult where
  | ok (toneExpired : Bool)
  | err (record : ErrorRecord)
deriving DecidableEq, Repr

/-- The display buffer (R28): `FB[r][c]` at row r (0 to 31) and column c (0 to 63); `true` is an on pixel. -/
abbrev Display := Vector (Vector Bool 64) 32

/-- The keypad (R30): key k is pressed when entry k is `true`. -/
abbrev Keypad := Vector Bool 16

/-- The architectural state of R20, with the model's own `cfg` and `draws`. -/
structure State where
  /-- The parameters of R6 (the model's own field: constant). -/
  cfg : Config
  /-- `M` (R31). -/
  mem : Memory
  /-- `V` (R21). -/
  v : Vector Byte 16
  /-- `I` (R24). -/
  i : Addr
  /-- `pc` (R25). -/
  pc : Addr
  /-- `S`, all 16 entries (R26). -/
  stack : Vector Addr 16
  /-- `sp`, the number of entries in use, 0 to 16 (R26, R39). -/
  sp : Fin 17
  /-- `DT` (R27). -/
  dt : Byte
  /-- `ST` (R27). -/
  st : Byte
  /-- `FB` (R28). -/
  fb : Display
  /-- `dirty` (R29). -/
  dirty : Bool
  /-- `K` (R30). -/
  keys : Keypad
  /-- `halted` (R34). -/
  halted : Option ErrorRecord
  /-- How many draws the run has taken (the model's own field: the index of the next free value, R6, R33). -/
  draws : Nat
deriving DecidableEq, Repr

/-- Reasons a step stops outside the machine. There are none: every error of R330 is an outcome the machine itself
reports and records in `halted` (R138, R341), so a step always answers a next state. -/
inductive Fault where
deriving DecidableEq, Repr

/-- Reasons the model gives an instruction no meaning. -/
inductive Refusal where
  /-- Raised only by an arm of `exec` whose instruction has no meaning yet; safe. No arm of this model does. -/
  | notModelled (mnemonic : String)
deriving DecidableEq, Repr

/-- The state `initialize()` leaves (R380), under given parameters and with the draws taken so far. -/
def State.resetWith (cfg : Config) (draws : Nat) : State where
  cfg := cfg
  mem := []
  v := Vector.replicate 16 0
  i := 0
  pc := 0x200
  stack := Vector.replicate 16 0
  sp := 0
  dt := 0
  st := 0
  fb := Vector.replicate 32 (Vector.replicate 64 false)
  dirty := true
  keys := Vector.replicate 16 false
  halted := none
  draws := draws

/-- The machine right after reset (R380), under the default parameters of R6. -/
def State.reset : State := State.resetWith Config.default 0

end Sys2Proof.Machine
end

