-- ==== Sys2Proof/Machine/Ops.lean ====
section
/-! DEFINITION. The named operations the meanings are built from: registers, memory (R61), pc (R9), stack (R26), display
(R280, R282), keypad and draws (R303, R211), the timer tick (R136), and raising a step error (R138, R341). -/

namespace Sys2Proof.Machine

/-- What a meaning answers. -/
abbrev Result := Host.Outcome State Fault Refusal

/-! ### Error codes (R330) -/

/-- The code of a step error (R330; the numbers are the spec's own, D22). -/
def StepError.code : StepError → Nat
  | .unknownOpcode _ => 2
  | .stackUnderflow => 3
  | .stackOverflow => 4
  | .addressOutOfRange _ => 5
  | .reservedWrite _ => 6
  | .keyIndexOutOfRange _ => 7

/-- The code of a load error (R330). -/
def LoadError.code : LoadError → Nat
  | .imageTooLarge _ => 1

/-! ### General registers -/

/-- `V[k]` (R9, R21). -/
def State.reg (s : State) (k : RegIdx) : Byte := s.v[k.val]

/-- `V[k] <- b` (R9, R21). -/
def State.setReg (s : State) (k : RegIdx) (b : Byte) : State := { s with v := s.v.set k.val b k.isLt }

/-- VF, the flag output (R22). -/
abbrev flagReg : RegIdx := 15

/-- A result and its flag: the result first and VF last, so for x = 0xF the flag stays (R139; D4). -/
def State.setRegAndFlag (s : State) (k : RegIdx) (result flag : Byte) : State :=
  (s.setReg k result).setReg flagReg flag

/-- V0 to Vx, in register order (R94). -/
def State.regsUpTo (s : State) (x : RegIdx) : List Byte := s.v.toList.take (x.val + 1)

/-- Fill registers from index `k` upward with the listed bytes (R255). -/
def loadRegs (k : Nat) : List Byte → Vector Byte 16 → Vector Byte 16
  | [], v => v
  | b :: bs, v => loadRegs (k + 1) bs (v.setIfInBounds k b)

/-! ### Program counter (R9, R135) -/

/-- `advance(k)`: pc <- (pc + k) mod 2^16. -/
def State.advance (s : State) (k : Addr) : State := { s with pc := s.pc + k }

/-- `skip_if(c)`: `advance(c ? 4 : 2)`. -/
def State.skipIf (s : State) (c : Bool) : State := s.advance (if c then 4 else 2)

/-- `pc <- target`. -/
def State.jump (s : State) (target : Addr) : State := { s with pc := target }

/-- `I <- a`. -/
def State.setIndex (s : State) (a : Addr) : State := { s with i := a }

/-! ### Raising a step error (R138, R341) -/

/-- Error entry (R341): nothing changes but `halted`, which records the error, the opcode and pc. No handler runs, nothing
else is saved, and there is no return from it but `initialize()` (R342). -/
def State.raise (s : State) (e : StepError) (op : Option Opcode) : State :=
  { s with halted := some { error := e, op := op, pc := s.pc } }

/-- End an instruction: commit the state it built, or, on an error, discard it all and record the error with the
instruction's opcode (R9, R138). -/
def attempt (ins : Instr) (s : State) : Except StepError State → Result
  | .ok t => .next t
  | .error e => .next (s.raise e (some (encode ins)))

/-! ### Memory (R61, R64, R65, R69) -/

/-- The byte at an address, as the machine's memory holds it. -/
def State.byteAt (s : State) (a : Nat) : Byte := Memory.read s.cfg.font s.mem a

/-- `MemRead(a, 1)` (R61). Reads below 0x200 are allowed (R65). -/
def memRead (s : State) (a : Nat) : Except StepError Byte :=
  if memorySize ≤ a then .error (.addressOutOfRange a) else .ok (s.byteAt a)

/-- What `MemWrite` raises at an address, if anything (R61, R64). -/
def storeError (cfg : Config) (a : Nat) : Option StepError :=
  if memorySize ≤ a then some (.addressOutOfRange a)
  else if a < programBase ∧ cfg.reservedWrite = .fault then some (.reservedWrite a)
  else none

/-- Put a byte in memory, with no check. -/
def State.poke (s : State) (a : Nat) (b : Byte) : State :=
  { s with mem := Memory.write s.cfg.font s.mem a b }

/-- `MemWrite(a, 1, b)` (R61). -/
def memWrite (s : State) (a : Nat) (b : Byte) : Except StepError State :=
  match storeError s.cfg a with
  | some e => .error e
  | none => .ok (s.poke a b)

/-- Read `n` consecutive bytes from `a` upward; the lowest failing address raises (R69, R340). -/
def readBytes (s : State) (a : Nat) : Nat → Except StepError (List Byte)
  | 0 => .ok []
  | n + 1 =>
    match memRead s a with
    | .error e => .error e
    | .ok b =>
      match readBytes s (a + 1) n with
      | .error e => .error e
      | .ok bs => .ok (b :: bs)

/-- Write consecutive bytes from `a` upward; the lowest failing address raises (R69, R340). -/
def writeBytes (s : State) (a : Nat) : List Byte → Except StepError State
  | [] => .ok s
  | b :: bs =>
    match memWrite s a b with
    | .error e => .error e
    | .ok t => writeBytes t (a + 1) bs

/-! ### Call stack (R26) -/

/-- Push: requires `sp < 16` (R26, R334). -/
def push (s : State) (a : Addr) : Except StepError State :=
  if h : s.sp.val < 16 then
    .ok { s with stack := s.stack.set s.sp.val a h, sp := ⟨s.sp.val + 1, Nat.succ_lt_succ h⟩ }
  else .error .stackOverflow

/-- Pop: requires `sp > 0` (R26, R332). The entry stays in place (D23). -/
def pop (s : State) : Except StepError (Addr × State) :=
  match h : s.sp.val with
  | 0 => .error .stackUnderflow
  | k + 1 =>
    have hk : k < 16 := Nat.lt_of_succ_lt_succ (h ▸ s.sp.isLt)
    .ok (s.stack[k], { s with sp := ⟨k, Nat.lt_succ_of_lt hk⟩ })

/-! ### Display (R28, R280 to R282) -/

/-- `FB[r][c]` of a display. -/
def Display.pixel (fb : Display) (r : Fin 32) (c : Fin 64) : Bool := fb[r.val][c.val]

/-- `FB[r][c] <- b` on a display. -/
def Display.setPixel (fb : Display) (r : Fin 32) (c : Fin 64) (b : Bool) : Display :=
  fb.set r.val (fb[r.val].set c.val b c.isLt) r.isLt

/-- `FB[r][c]` (R9, R28). -/
def State.pixel (s : State) (r : Fin 32) (c : Fin 64) : Bool := Display.pixel s.fb r c

/-- Every pixel off (R281). -/
def blankDisplay : Display := Vector.replicate 32 (Vector.replicate 64 false)

/-- A display being drawn on, and whether an on pixel was turned off so far (R282, `collided`). -/
abbrev Drawing := Display × Bool

/-- XOR one sprite bit into a pixel: the collision is tested before the XOR (R282). -/
def xorPixel (d : Drawing) (r : Fin 32) (c : Fin 64) (bit : Bool) : Drawing :=
  if bit then (Display.setPixel d.1 r c (!Display.pixel d.1 r c), d.2 || Display.pixel d.1 r c) else d

/-- Sprite columns `c`, `c + 1`, …, 7 of one sprite row: bit `7 − c` of the row lands on display column
`(cx + c) mod 64` (R280, R282: MSB is the leftmost column). `left` columns remain. -/
def drawColumns (cx : Nat) (r : Fin 32) (row : Byte) : Nat → Drawing → Drawing
  | 0, d => d
  | left + 1, d =>
    drawColumns cx r row left (xorPixel d r (Fin.ofNat 64 (cx + (7 - left))) (row.getLsbD left))

/-- The sprite rows, top to bottom, from display row `cy mod 32` downward with wraparound (R280, R282). -/
def drawRows (cx : Nat) : Nat → List Byte → Drawing → Drawing
  | _, [], d => d
  | cy, row :: rows, d => drawRows cx (cy + 1) rows (drawColumns cx (Fin.ofNat 32 cy) row 8 d)

/-! ### Keypad (R30, R303) -/

/-- `K[k]` (R9, R30). Within a step this is the snapshot `Kp` of R132: no host operation runs during a step. -/
def State.key (s : State) (k : KeyIdx) : Bool := s.keys[k.val]

/-- The set `P` of R303, in rising order. -/
def State.pressedKeys (s : State) : List KeyIdx := (List.finRange 16).filter fun k => s.key k

/-- The member of a list of pressed keys that a draw names; none of an empty list (R303). -/
def chooseKey (choice : Nat) : List KeyIdx → Option KeyIdx
  | [] => none
  | [k] => some k
  | k :: l :: rest => (k :: l :: rest)[choice % (k :: l :: rest).length]?

/-! ### Draws (R6, R33; D17, D19) -/

/-- The byte the next draw gives: a free value. -/
def State.nextRnd (s : State) : Byte := Config.rnd s.draws

/-- The choice among the pressed keys that the next draw gives: a free value. -/
def State.nextKeyChoice (s : State) : Nat := Config.keyChoice s.draws s.pressedKeys

/-- A draw has been taken, so the next one is fresh (R211). -/
def State.drawn (s : State) : State := { s with draws := s.draws + 1 }

/-! ### Timers (R27, R136) -/

/-- A timer after one tick: decremented when nonzero, clamped at zero. -/
def tickTimer (t : Byte) : Byte := if t = 0 then 0 else t - 1

/-- The timer tick (R136). -/
def State.tick (s : State) : State := { s with dt := tickTimer s.dt, st := tickTimer s.st }

/-- Whether the tick of this state reports the tone-expired event: exactly when it takes ST from 1 to 0 (R136, R345). -/
def State.toneExpires (s : State) : Bool := s.st != 0 && tickTimer s.st == 0

end Sys2Proof.Machine
end

