-- ==== Sys2Proof/Machine/Operands.lean ====
section
/-! DEFINITION. The operand forms of the instruction set (R93, R94, R256, R280, R306): how literals, register values and
parameters become addresses, key indices, digits and coordinates. -/

namespace Sys2Proof.Machine

/-- A 12-bit literal address zero-extended to 16 bits (R93). -/
def literalAddr (nnn : BitVec 12) : Addr := nnn.setWidth 16

/-- A register value zero-extended to 16 bits (R163, R251). -/
def byteAddr (a : Byte) : Addr := a.setWidth 16

/-- The low nibble of a register value (R252, R306). -/
def lowNibble (a : Byte) : Fin 16 := ⟨(a &&& 0x0F).toNat % 16, Nat.mod_lt _ (by decide)⟩

/-- `key_index(a)` (R306; D18). -/
def keyIndex (policy : KeyIndexPolicy) (a : Byte) : Except StepError KeyIdx :=
  if h : a.toNat < 16 then .ok ⟨a.toNat, h⟩
  else
    match policy with
    | .fault => .error (.keyIndexOutOfRange a)
    | .lowNibble => .ok (lowNibble a)

/-- The operand of 8XY6 and 8XYE, chosen by `SHIFT_SOURCE` (R208, R210; D3). -/
def State.shiftOperand (s : State) (x y : RegIdx) : Byte :=
  match s.cfg.shiftSource with
  | .vx => s.reg x
  | .vy => s.reg y

/-- The address of the glyph of a digit: `0x000 + d × 5` (R252). -/
def glyphAddr (d : Fin 16) : Addr := BitVec.ofNat 16 (0x000 + d.val * 5)

/-- The decimal digits of a byte: hundreds, tens, ones (R253). -/
def bcdDigits (v : Byte) : List Byte :=
  [BitVec.ofNat 8 (v.toNat / 100), BitVec.ofNat 8 (v.toNat / 10 % 10), BitVec.ofNat 8 (v.toNat % 10)]

/-- The base of an index-relative access, a natural number: `I + k` is formed without wrap (R61, R256). -/
def State.indexBase (s : State) : Nat := s.i.toNat

/-- `incI(b, x)` (R254; D7). -/
def incIndex (policy : LoadStoreIncrement) (b : Addr) (x : RegIdx) : Addr :=
  match policy with
  | .none => b
  | .xPlus1 => b + BitVec.ofNat 16 (x.val + 1)
  | .x => b + BitVec.ofNat 16 x.val

/-- The sprite's origin column, `Vx mod 64` (R280). -/
def State.spriteColumn (s : State) (x : RegIdx) : Nat := (s.reg x).toNat % 64

/-- The sprite's origin row, `Vy mod 32` (R280). -/
def State.spriteRow (s : State) (y : RegIdx) : Nat := (s.reg y).toNat % 32

end Sys2Proof.Machine
end

