-- ==== Sys2Proof/Machine/Alu.lean ====
section
/-! DEFINITION. Register loads, the 8-group ALU and RND (43_alu.md, R200 to R212). Operands are read from the state before
any write, and VF is written last (R139). -/

namespace Sys2Proof.Machine

/-- `6XNN` LD Vx, byte (R200). -/
def execLdImm (x : RegIdx) (nn : Byte) (s : State) : Result :=
  .next ((s.setReg x nn).advance 2)

/-- `7XNN` ADD Vx, byte (R201): no flag. -/
def execAddImm (x : RegIdx) (nn : Byte) (s : State) : Result :=
  .next ((s.setReg x (s.reg x + nn)).advance 2)

/-- `8XY0` LD Vx, Vy (R202). -/
def execLdReg (x y : RegIdx) (s : State) : Result :=
  .next ((s.setReg x (s.reg y)).advance 2)

/-- `8XY1` OR Vx, Vy (R203): no flag (D5). -/
def execOrReg (x y : RegIdx) (s : State) : Result :=
  .next ((s.setReg x (s.reg x ||| s.reg y)).advance 2)

/-- `8XY2` AND Vx, Vy (R204): no flag (D5). -/
def execAndReg (x y : RegIdx) (s : State) : Result :=
  .next ((s.setReg x (s.reg x &&& s.reg y)).advance 2)

/-- `8XY3` XOR Vx, Vy (R205): no flag (D5). -/
def execXorReg (x y : RegIdx) (s : State) : Result :=
  .next ((s.setReg x (s.reg x ^^^ s.reg y)).advance 2)

/-- `8XY4` ADD Vx, Vy (R206). -/
def execAddReg (x y : RegIdx) (s : State) : Result :=
  .next ((s.setRegAndFlag x (s.reg x + s.reg y) (carryFlag (s.reg x) (s.reg y))).advance 2)

/-- `8XY5` SUB Vx, Vy (R207): Vx − Vy. -/
def execSub (x y : RegIdx) (s : State) : Result :=
  .next ((s.setRegAndFlag x (s.reg x - s.reg y) (notBorrowFlag (s.reg x) (s.reg y))).advance 2)

/-- `8XY6` SHR Vx, Vy (R208). -/
def execShr (x y : RegIdx) (s : State) : Result :=
  .next ((s.setRegAndFlag x (s.shiftOperand x y >>> 1) (shiftedOutLow (s.shiftOperand x y))).advance 2)

/-- `8XY7` SUBN Vx, Vy (R209): Vy − Vx. -/
def execSubn (x y : RegIdx) (s : State) : Result :=
  .next ((s.setRegAndFlag x (s.reg y - s.reg x) (notBorrowFlag (s.reg y) (s.reg x))).advance 2)

/-- `8XYE` SHL Vx, Vy (R210). -/
def execShl (x y : RegIdx) (s : State) : Result :=
  .next ((s.setRegAndFlag x (s.shiftOperand x y <<< 1) (shiftedOutHigh (s.shiftOperand x y))).advance 2)

/-- RND with its draw as an argument (R211). -/
def rndWith (draw : Byte) (x : RegIdx) (nn : Byte) (s : State) : State :=
  (s.setReg x (draw &&& nn)).advance 2

/-- `CXNN` RND Vx, byte (R211): each execution takes a fresh draw, a free value (D19). -/
def execRnd (x : RegIdx) (nn : Byte) (s : State) : Result :=
  .next (rndWith s.nextRnd x nn s).drawn

end Sys2Proof.Machine
end

