-- ==== Sys2Proof/Machine/ControlFlow.lean ====
section
/-! DEFINITION. Control flow: RET, JP, CALL, JP V0 (41_control_flow.md, R160 to R165). -/

namespace Sys2Proof.Machine

/-- `00EE` RET (R160): pop the call's own address and resume after it, or `StackUnderflow`. -/
def execRet (s : State) : Result :=
  attempt .ret s <|
    match pop s with
    | .error e => .error e
    | .ok (a, t) => .ok (t.jump (a + 2))

/-- `1NNN` JP addr (R161). -/
def execJp (nnn : BitVec 12) (s : State) : Result :=
  .next (s.jump (literalAddr nnn))

/-- `2NNN` CALL addr (R162): push this instruction's own address (C2), then jump, or `StackOverflow`. -/
def execCall (nnn : BitVec 12) (s : State) : Result :=
  attempt (.call nnn) s <|
    match push s s.pc with
    | .error e => .error e
    | .ok t => .ok (t.jump (literalAddr nnn))

/-- `BNNN` JP V0, addr (R163): the sum is not masked to 12 bits (D9). -/
def execJpV0 (nnn : BitVec 12) (s : State) : Result :=
  .next (s.jump (byteAddr (s.reg 0) + literalAddr nnn))

end Sys2Proof.Machine
end

