-- ==== Sys2Proof/Machine/Display.lean ====
section
/-! DEFINITION. The display instructions (45_display.md, R280 to R284). -/

namespace Sys2Proof.Machine

/-- `00E0` CLS (R281). -/
def execCls (s : State) : Result :=
  .next ({ s with fb := blankDisplay, dirty := true }.advance 2)

/-- The state after a draw of the given sprite rows (R282): the pixels, VF written after the coordinates were read, and
dirty set whether or not a pixel changed (D26). -/
def drawSprite (x y : RegIdx) (rows : List Byte) (s : State) : State :=
  let d := drawRows (s.spriteColumn x) (s.spriteRow y) rows (s.fb, false)
  ({ s with fb := d.1, dirty := true }.setReg flagReg (flagOf d.2)).advance 2

/-- `DXYN` DRW Vx, Vy, nibble (R282): every sprite byte is read before any pixel is written. Height 0 draws nothing
(the `empty` reading of D8; under `unknown` no opcode decodes to it). -/
def execDrw (x y : RegIdx) (n : Fin 16) (s : State) : Result :=
  attempt (.drw x y n) s <|
    match readBytes s s.indexBase n.val with
    | .error e => .error e
    | .ok rows => .ok (drawSprite x y rows s)

end Sys2Proof.Machine
end

