-- ==== Sys2Proof/Machine/IndexMemory.lean ====
section
/-! DEFINITION. The index register and memory transfer (44_index_memory.md, R250 to R256). -/

namespace Sys2Proof.Machine

/-- `ANNN` LD I, addr (R250). -/
def execLdI (nnn : BitVec 12) (s : State) : Result :=
  .next ((s.setIndex (literalAddr nnn)).advance 2)

/-- `FX1E` ADD I, Vx (R251): mod 2^16, no flag (D6). -/
def execAddIVx (x : RegIdx) (s : State) : Result :=
  .next ((s.setIndex (s.i + byteAddr (s.reg x))).advance 2)

/-- `FX29` LD F, Vx (R252). -/
def execLdFVx (x : RegIdx) (s : State) : Result :=
  .next ((s.setIndex (glyphAddr (lowNibble (s.reg x)))).advance 2)

/-- `FX33` LD B, Vx (R253): three digits, all written or none. -/
def execLdBVx (x : RegIdx) (s : State) : Result :=
  attempt (.ldBVx x) s <|
    match writeBytes s s.indexBase (bcdDigits (s.reg x)) with
    | .error e => .error e
    | .ok t => .ok (t.advance 2)

/-- `FX55` LD [I], Vx (R254): V0 to Vx, all written or none. -/
def execLdMemVx (x : RegIdx) (s : State) : Result :=
  attempt (.ldMemVx x) s <|
    match writeBytes s s.indexBase (s.regsUpTo x) with
    | .error e => .error e
    | .ok t => .ok ((t.setIndex (incIndex s.cfg.loadStoreIncrement s.i x)).advance 2)

/-- `FX65` LD Vx, [I] (R255): V0 to Vx, all loaded or none. -/
def execLdVxMem (x : RegIdx) (s : State) : Result :=
  attempt (.ldVxMem x) s <|
    match readBytes s s.indexBase (x.val + 1) with
    | .error e => .error e
    | .ok bytes =>
      .ok (({ s with v := loadRegs 0 bytes s.v }.setIndex
        (incIndex s.cfg.loadStoreIncrement s.i x)).advance 2)

end Sys2Proof.Machine
end

