-- ==== Sys2Proof/Machine/Skip.lean ====
section
/-! DEFINITION. Conditional skips on registers (42_skip.md, R180 to R183). -/

namespace Sys2Proof.Machine

/-- `3XNN` SE Vx, byte (R180). -/
def execSeImm (x : RegIdx) (nn : Byte) (s : State) : Result :=
  .next (s.skipIf (s.reg x == nn))

/-- `4XNN` SNE Vx, byte (R181). -/
def execSneImm (x : RegIdx) (nn : Byte) (s : State) : Result :=
  .next (s.skipIf (s.reg x != nn))

/-- `5XY0` SE Vx, Vy (R182). -/
def execSeReg (x y : RegIdx) (s : State) : Result :=
  .next (s.skipIf (s.reg x == s.reg y))

/-- `9XY0` SNE Vx, Vy (R183). -/
def execSneReg (x y : RegIdx) (s : State) : Result :=
  .next (s.skipIf (s.reg x != s.reg y))

end Sys2Proof.Machine
end

