-- ==== Sys2Proof/Machine/TimerKeypad.lean ====
section
/-! DEFINITION. Keypad and timer instructions (46_timer_keypad.md, R300 to R306). The tick of R136 follows each of them in
its step (Cycle.lean). -/

namespace Sys2Proof.Machine

/-- `EX9E` SKP Vx (R300). -/
def execSkp (x : RegIdx) (s : State) : Result :=
  attempt (.skp x) s <|
    match keyIndex s.cfg.keyIndex (s.reg x) with
    | .error e => .error e
    | .ok k => .ok (s.skipIf (s.key k))

/-- `EXA1` SKNP Vx (R301). -/
def execSknp (x : RegIdx) (s : State) : Result :=
  attempt (.sknp x) s <|
    match keyIndex s.cfg.keyIndex (s.reg x) with
    | .error e => .error e
    | .ok k => .ok (s.skipIf (!s.key k))

/-- `FX07` LD Vx, DT (R302): DT before this step's tick. -/
def execLdVxDt (x : RegIdx) (s : State) : Result :=
  .next ((s.setReg x s.dt).advance 2)

/-- FX0A with its draw as an argument (R303): with no key pressed nothing changes, so the next step executes it again. -/
def keyWaitWith (choice : Nat) (x : RegIdx) (s : State) : State :=
  match chooseKey choice s.pressedKeys with
  | none => s
  | some k => ((s.setReg x (BitVec.ofNat 8 k.val)).advance 2).drawn

/-- `FX0A` LD Vx, K (R303): the key among those pressed is a free value (D17). -/
def execLdVxK (x : RegIdx) (s : State) : Result :=
  .next (keyWaitWith s.nextKeyChoice x s)

/-- `FX15` LD DT, Vx (R304). -/
def execLdDtVx (x : RegIdx) (s : State) : Result :=
  .next ({ s with dt := s.reg x }.advance 2)

/-- `FX18` LD ST, Vx (R305). -/
def execLdStVx (x : RegIdx) (s : State) : Result :=
  .next ({ s with st := s.reg x }.advance 2)

end Sys2Proof.Machine
end

