-- ==== Sys2Proof/Machine/Cycle.lean ====
section
/-! DEFINITION. The instruction cycle (40_cycle.md, R130 to R140): fetch, decode, execute, tick, and what `step()` returns
to the host. Step.lean only calls it. -/

namespace Sys2Proof.Machine

/-- Fetch (R133): the two bytes at pc, big-endian (R66), or `AddressOutOfRange` at the lower out-of-range address (D10). -/
def fetch (s : State) : Except StepError Opcode :=
  if memorySize ≤ s.pc.toNat + 1 then
    .error (.addressOutOfRange (if memorySize ≤ s.pc.toNat then s.pc.toNat else memorySize))
  else .ok (composeOpcode (s.byteAt s.pc.toNat) (s.byteAt (s.pc.toNat + 1)))

/-- A failing step: the record in `halted`, and the same record returned (R137, R138). -/
def failWith (s : State) (e : StepError) (op : Option Opcode) : State × StepResult :=
  (s.raise e op, .err { error := e, op := op, pc := s.pc })

/-- The end of a step whose instruction has executed (R136, R137): the tick and its event, or, if the instruction raised
an error, no tick and no event. -/
def finish (t : State) : State × StepResult :=
  match t.halted with
  | some r => (t, .err r)
  | none => (t.tick, .ok t.toneExpires)

/-- `step()` as a whole (R137): the state it leaves and what it returns. -/
def cycle (s : State) : Host.Outcome (State × StepResult) Fault Refusal :=
  match s.halted with
  | some r => .next (s, .err r)
  | none =>
    match fetch s with
    | .error e => .next (failWith s e none)
    | .ok op =>
      match decode s.cfg.zeroHeightDraw op with
      | .error _ => .next (failWith s (.unknownOpcode op) (some op))
      | .ok i =>
        match exec i s with
        | .next t => .next (finish t)
        | .fault f => .fault f
        | .refused r => .refused r

/-- The state a cycle leaves, without what it returns. -/
def cycleState : Host.Outcome (State × StepResult) Fault Refusal → Host.Outcome State Fault Refusal
  | .next p => .next p.1
  | .fault f => .fault f
  | .refused r => .refused r

/-- What the next `step()` returns to the host (R130). The tone-expired event is this output and no state (R35). -/
def stepResult (s : State) : Option StepResult :=
  match cycle s with
  | .next p => some p.2
  | _ => none

/-- Store a table word where the next fetch reads it: its high byte at pc and its low byte at pc + 1 (R66). A halted
machine fetches nothing, so the record is cleared; where pc + 1 is outside memory there is no place to store it. -/
def placeOpcode (s : State) (op : Opcode) : State :=
  if memorySize ≤ s.pc.toNat + 1 then { s with halted := none }
  else
    { s with
      mem := Memory.writeAll s.cfg.font s.mem s.pc.toNat [opcodeHigh op, opcodeLow op]
      halted := none }

end Sys2Proof.Machine
end

