-- ==== Sys2Proof/Machine/Step.lean ====
section
/-! DEFINITION. One step of the machine (R130, R137) and where a step fetches its next instruction. -/

namespace Sys2Proof.Machine

/-- One call of `step()`: the state it leaves (R137). -/
def step (s : State) : Host.Outcome State Fault Refusal := cycleState (cycle s)

/-- The state with an instruction of the opcode table stored where `step` fetches its next instruction. -/
def State.withFetchWord (s : State) (nbits w : Nat) : State := placeOpcode s (tableOpcode nbits w)

end Sys2Proof.Machine
end

