-- ==== Sys2Proof/Machine/HostOps.lean ====
section
/-! DEFINITION. The host operations of R348 other than `step()`: the only other way state changes (R349). Each runs between
steps and none fails but `load_program` (R338). -/

namespace Sys2Proof.Machine

/-- `initialize()` (R380): every piece of state at its reset value. The parameters stay, and later draws stay fresh. -/
def State.hostInit (s : State) : State := State.resetWith s.cfg s.draws

/-- `load_program(bytes)` (R381, R333): copy the image to 0x200 onward, or reject it and change nothing. -/
def State.loadProgram (s : State) (bytes : List Byte) : Except LoadError State :=
  if maxImage < bytes.length then .error (.imageTooLarge bytes.length)
  else .ok { s with mem := Memory.writeAll s.cfg.font s.mem programBase bytes }

/-- `set_key(k, pressed)` (R347). -/
def State.setKey (s : State) (k : KeyIdx) (pressed : Bool) : State :=
  { s with keys := s.keys.set k.val pressed k.isLt }

/-- `framebuffer()` (R284): the 2048 pixels in row-major order. -/
def State.framebuffer (s : State) : List Bool := (s.fb.toList.map Vector.toList).flatten

/-- `display_dirty()` (R29, R348). -/
def State.displayDirty (s : State) : Bool := s.dirty

/-- `clear_dirty()` (R29, R348; D34). -/
def State.clearDirty (s : State) : State := { s with dirty := false }

/-- The host operations of R348 that may change state, other than `step()`. -/
inductive HostOp where
  | init
  | load (bytes : List Byte)
  | setKey (k : KeyIdx) (pressed : Bool)
  | clearDirty
deriving DecidableEq, Repr

/-- The state a host operation leaves; a rejected load leaves it as it was (R333). -/
def State.hostApply (s : State) : HostOp → State
  | .init => s.hostInit
  | .load bytes =>
    match s.loadProgram bytes with
    | .ok t => t
    | .error _ => s
  | .setKey k pressed => s.setKey k pressed
  | .clearDirty => s.clearDirty

end Sys2Proof.Machine
end

