-- ==== Sys2Proof/Safety.lean ====
section
/-! DEFINITION. The terms claims are stated in: the parts of the state and what a transition leaves unchanged, the part of
the state each instruction may write (R38), what a store or a key index needs (R61, R64, R306), the invariant (R39, R135,
R330), runs of steps and host operations (R348, R349), and when a program has finished (R396). -/

namespace Sys2Proof.Machine

/-! ### Parts of the state and frames -/

/-- One piece of the state of R20, or one of the model's own two fields. -/
inductive Part where
  | reg (k : RegIdx)
  | index
  | pc
  | stackEntry (j : Fin 16)
  | sp
  | dt
  | st
  | pixel (r : Fin 32) (c : Fin 64)
  | dirty
  | key (k : KeyIdx)
  | halted
  | byte (a : Nat)
  | config
  | draws
deriving DecidableEq, Repr

/-- Two states agree on a part. Memory is compared through the read of one byte. -/
def Part.same (s t : State) : Part → Prop
  | .reg k => t.reg k = s.reg k
  | .index => t.i = s.i
  | .pc => t.pc = s.pc
  | .stackEntry j => t.stack[j.val] = s.stack[j.val]
  | .sp => t.sp = s.sp
  | .dt => t.dt = s.dt
  | .st => t.st = s.st
  | .pixel r c => t.pixel r c = s.pixel r c
  | .dirty => t.dirty = s.dirty
  | .key k => t.key k = s.key k
  | .halted => t.halted = s.halted
  | .byte a => t.byteAt a = s.byteAt a
  | .config => t.cfg = s.cfg
  | .draws => t.draws = s.draws

/-- Everything outside the given parts is as it was. -/
def State.UnchangedOutside (s t : State) (written : Part → Prop) : Prop :=
  ∀ p, ¬ written p → Part.same s t p

/-- Everything but the listed parts is as it was. -/
def State.OnlyChanges (s t : State) (written : List Part) : Prop :=
  s.UnchangedOutside t (· ∈ written)

/-- What an instruction may write in a state where it raises no error: its row of the table of R38. `draws` is the model's
own, advanced where R38 lists a draw as read. -/
def rowWrites (s : State) : Instr → Part → Prop
  | .cls, p => (∃ r c, p = .pixel r c) ∨ p = .dirty ∨ p = .pc
  | .ret, p => p = .sp ∨ p = .pc
  | .jp _, p => p = .pc
  | .call _, p => (∃ j : Fin 16, j.val = s.sp.val ∧ p = .stackEntry j) ∨ p = .sp ∨ p = .pc
  | .seImm _ _, p => p = .pc
  | .sneImm _ _, p => p = .pc
  | .seReg _ _, p => p = .pc
  | .sneReg _ _, p => p = .pc
  | .ldImm x _, p => p = .reg x ∨ p = .pc
  | .addImm x _, p => p = .reg x ∨ p = .pc
  | .ldReg x _, p => p = .reg x ∨ p = .pc
  | .orReg x _, p => p = .reg x ∨ p = .pc
  | .andReg x _, p => p = .reg x ∨ p = .pc
  | .xorReg x _, p => p = .reg x ∨ p = .pc
  | .addReg x _, p => p = .reg x ∨ p = .reg 15 ∨ p = .pc
  | .sub x _, p => p = .reg x ∨ p = .reg 15 ∨ p = .pc
  | .shr x _, p => p = .reg x ∨ p = .reg 15 ∨ p = .pc
  | .subn x _, p => p = .reg x ∨ p = .reg 15 ∨ p = .pc
  | .shl x _, p => p = .reg x ∨ p = .reg 15 ∨ p = .pc
  | .ldI _, p => p = .index ∨ p = .pc
  | .jpV0 _, p => p = .pc
  | .rnd x _, p => p = .reg x ∨ p = .pc ∨ p = .draws
  | .drw _ _ _, p => (∃ r c, p = .pixel r c) ∨ p = .reg 15 ∨ p = .dirty ∨ p = .pc
  | .skp _, p => p = .pc
  | .sknp _, p => p = .pc
  | .ldVxDt x, p => p = .reg x ∨ p = .pc
  | .ldVxK x, p => (p = .reg x ∨ p = .pc ∨ p = .draws) ∧ ∃ k, s.key k = true
  | .ldDtVx _, p => p = .dt ∨ p = .pc
  | .ldStVx _, p => p = .st ∨ p = .pc
  | .addIVx _, p => p = .index ∨ p = .pc
  | .ldFVx _, p => p = .index ∨ p = .pc
  | .ldBVx _, p => (∃ k, k < 3 ∧ p = .byte (s.i.toNat + k)) ∨ p = .pc
  | .ldMemVx x, p =>
    (∃ k, k ≤ x.val ∧ p = .byte (s.i.toNat + k)) ∨
      (p = .index ∧ s.cfg.loadStoreIncrement ≠ .none) ∨ p = .pc
  | .ldVxMem x, p =>
    (∃ k : RegIdx, k ≤ x ∧ p = .reg k) ∨ (p = .index ∧ s.cfg.loadStoreIncrement ≠ .none) ∨ p = .pc

/-- The instructions that may write VF: the flag writers of R22, and those that name VF as their destination. -/
def mayWriteVF : Instr → Prop
  | .addReg _ _ => True
  | .sub _ _ => True
  | .subn _ _ => True
  | .shr _ _ => True
  | .shl _ _ => True
  | .drw _ _ _ => True
  | .ldImm x _ => x = 15
  | .addImm x _ => x = 15
  | .ldReg x _ => x = 15
  | .orReg x _ => x = 15
  | .andReg x _ => x = 15
  | .xorReg x _ => x = 15
  | .rnd x _ => x = 15
  | .ldVxDt x => x = 15
  | .ldVxK x => x = 15
  | .ldVxMem x => x = 15
  | .cls => False
  | .ret => False
  | .jp _ => False
  | .call _ => False
  | .seImm _ _ => False
  | .sneImm _ _ => False
  | .seReg _ _ => False
  | .sneReg _ _ => False
  | .ldI _ => False
  | .jpV0 _ => False
  | .skp _ => False
  | .sknp _ => False
  | .ldDtVx _ => False
  | .ldStVx _ => False
  | .addIVx _ => False
  | .ldFVx _ => False
  | .ldBVx _ => False
  | .ldMemVx _ => False

/-! ### Conditions on operands -/

/-- An instruction's write of this address succeeds (R61, R64). -/
def Writable (cfg : Config) (a : Nat) : Prop := a < 0x1000 ∧ (0x200 ≤ a ∨ cfg.reservedWrite = .allow)

/-- An instruction's write of this address raises this error (R61, R64). -/
def StoreFails (cfg : Config) (a : Nat) (e : StepError) : Prop :=
  (0x1000 ≤ a ∧ e = .addressOutOfRange a) ∨
    (a < 0x200 ∧ cfg.reservedWrite = .fault ∧ e = .reservedWrite a)

/-- A register value selects this key (R306). -/
def KeySelected (cfg : Config) (a : Byte) (k : KeyIdx) : Prop :=
  (a.toNat ≤ 15 ∧ k.val = a.toNat) ∨ (15 < a.toNat ∧ cfg.keyIndex = .lowNibble ∧ k.val = a.toNat % 16)

/-- The operand that `SHIFT_SOURCE` selects (R208, R210). -/
def IsShiftOperand (s : State) (x y : RegIdx) (o : Byte) : Prop :=
  (s.cfg.shiftSource = .vx ∧ o = s.reg x) ∨ (s.cfg.shiftSource = .vy ∧ o = s.reg y)

/-- The index register after FX55 or FX65 with last register `x` (R254, R255). -/
def IndexAfter (cfg : Config) (b : Addr) (x : RegIdx) (after : Addr) : Prop :=
  (cfg.loadStoreIncrement = .none ∧ after = b) ∨
    (cfg.loadStoreIncrement = .xPlus1 ∧ after.toNat = (b.toNat + x.val + 1) % 65536) ∨
    (cfg.loadStoreIncrement = .x ∧ after.toNat = (b.toNat + x.val) % 65536)

/-- The pixel that sprite row `r` and sprite column `c` land on, for origin column `cx` and origin row `cy` (R280). -/
def LandsOn (cx cy r c : Nat) (pr : Fin 32) (pcol : Fin 64) : Prop :=
  pr.val = (cy + r) % 32 ∧ pcol.val = (cx + c) % 64

/-- The state whose only change is a halted record (R138, R341). -/
def State.haltedWith (s : State) (e : StepError) (op : Option Opcode) : State :=
  { s with halted := some { error := e, op := op, pc := s.pc } }

/-- The next fetch reads this opcode: both bytes are inside memory, and the byte at the lower address is the high byte
(R66, R133). -/
def State.Fetches (s : State) (op : Opcode) : Prop :=
  s.pc.toNat + 1 < 0x1000 ∧
    op.toNat = (s.byteAt s.pc.toNat).toNat * 256 + (s.byteAt (s.pc.toNat + 1)).toNat

/-! ### The invariant -/

/-- A record whose information fits its error (R330). -/
def ErrorRecord.Legal (r : ErrorRecord) : Prop :=
  match r.error with
  | .unknownOpcode v => r.op = some v
  | .stackUnderflow => r.op = some 0x00EE
  | .stackOverflow => ∃ nnn, r.op = some (encode (.call nnn))
  | .addressOutOfRange a => 0x1000 ≤ a
  | .reservedWrite a => a < 0x200 ∧ r.op ≠ none
  | .keyIndexOutOfRange v => 15 < v.toNat ∧ r.op ≠ none

/-- What every state the core reaches satisfies. The ranges of R39 hold by the types of the fields. -/
structure State.Inv (s : State) : Prop where
  /-- Memory is in its canonical form, inside the 4096 bytes of R60. -/
  memory : Memory.wf s.cfg.font s.mem = true
  /-- The largest pc any rule computes is 0x10FE (R135). -/
  pcBound : s.pc.toNat ≤ 0x10FE
  /-- Every stack entry is the pc of an instruction that executed, so at most 0xFFE (R135). -/
  stackBound : ∀ j : Fin 16, s.stack[j.val].toNat ≤ 0xFFE
  /-- The record of a halted machine fits its error (R330) and names the pc, which has not moved (R138). -/
  record : ∀ r, s.halted = some r → r.Legal ∧ r.pc = s.pc

/-- The bytes below 0x200 are as `initialize()` left them (R62, R63). -/
def State.LowMemoryIntact (s : State) : Prop :=
  ∀ a, a < 0x200 → s.byteAt a = Memory.unlisted s.cfg.font a

/-! ### Runs -/

/-- One move of the system: a step, or a host operation between steps (R348, R349). -/
inductive Move where
  | step
  | host (op : HostOp)
deriving DecidableEq, Repr

/-- The state a move leaves. -/
def State.move (s : State) : Move → State
  | .step =>
    match Sys2Proof.Machine.step s with
    | .next t => t
    | _ => s
  | .host op => s.hostApply op

/-- The state a sequence of moves leaves. -/
def State.run (s : State) (moves : List Move) : State := moves.foldl State.move s

/-- A program has finished (R396): pc is at a jump to itself, or the machine is halted. A convention on claims (D29): the
core itself does not stop. -/
def State.Finished (s : State) : Prop :=
  s.halted ≠ none ∨ ∃ nnn : BitVec 12, s.Fetches (encode (.jp nnn)) ∧ nnn.toNat = s.pc.toNat

end Sys2Proof.Machine
end

