-- ==== Sys2Proof/Certificates/Slice0/Obligations.lean ====
section
/-! DEFINITION. The statements for the provers. Each says which rule of spec/ it formalises. Numbers are written out from
the rules (opcodes, bounds, moduli), so a statement does not repeat the model's own definitions; frames are said with
`OnlyChanges` and `UnchangedOutside`, which compare every part of the state, memory byte by byte.

`exec` is one instruction without the tick of its step (R135); `cycle` is a whole step with what it returns (R137).
The parameters of R6 are fields of the state, so every statement holds for every value of them. -/

open Sys2Proof Sys2Proof.Machine

/-! ### Reset and the host's operations -/

/-- R380: `initialize()` puts every piece of state in its reset value, from any state, a halted one included; the state
after reset is such a state. The font stands only as the parameter `FONT` (R63). -/
def Obligations.InitializeSetsEveryResetValue : Prop :=
  ∀ t : State, (t = State.reset ∨ ∃ s : State, t = s.hostInit) →
    (∀ a, ∀ h : a < 0x50, t.byteAt a = t.cfg.font[a]) ∧
    (∀ a, 0x50 ≤ a → a < 0x1000 → t.byteAt a = 0) ∧
    (∀ k, t.reg k = 0) ∧ t.i = 0 ∧ t.pc = 0x200 ∧
    (∀ j : Fin 16, t.stack[j.val] = 0) ∧ t.sp = 0 ∧ t.dt = 0 ∧ t.st = 0 ∧
    (∀ r c, t.pixel r c = false) ∧ t.dirty = true ∧ (∀ k, t.key k = false) ∧ t.halted = none

/-- R381 and R333: `load_program` copies an image of at most 3584 bytes to 0x200 onward and changes nothing else; a larger
one is rejected with its length, and nothing changes. -/
def Obligations.LoadProgramCopiesOrRejectsWhole : Prop :=
  ∀ (bytes : List Byte) (s : State),
    (bytes.length ≤ 3584 → ∃ t, s.loadProgram bytes = .ok t ∧ s.hostApply (.load bytes) = t ∧
      (∀ k, ∀ h : k < bytes.length, t.byteAt (0x200 + k) = bytes[k]) ∧
      s.UnchangedOutside t fun p => ∃ k, k < bytes.length ∧ p = .byte (0x200 + k)) ∧
    (3584 < bytes.length →
      s.loadProgram bytes = .error (.imageTooLarge bytes.length) ∧ s.hostApply (.load bytes) = s)

/-- R347: `set_key(k, pressed)` sets K[k], and nothing else. With it the host's other write, `clear_dirty()` (R348). -/
def Obligations.SetKeyWritesOneKey : Prop :=
  (∀ (s : State) k pressed, (s.setKey k pressed).key k = pressed ∧ s.OnlyChanges (s.setKey k pressed) [.key k]) ∧
  ∀ s : State, s.clearDirty.displayDirty = false ∧ s.OnlyChanges s.clearDirty [.dirty]

/-- R284: `framebuffer()` gives 2048 pixels in row-major order, index r × 64 + c. -/
def Obligations.FramebufferIsRowMajor : Prop :=
  ∀ s : State, s.framebuffer.length = 2048 ∧
    ∀ (r : Fin 32) (c : Fin 64), s.framebuffer[r.val * 64 + c.val]? = some (s.pixel r c)

/-! ### The cycle -/

/-- R137 (with R66, R134, R135): when the two bytes at pc compose, high byte first, to an opcode that decodes to `i`, the
step is `exec i` and then, unless it raised an error, the tick. -/
def Obligations.StepRunsTheDecodedInstruction : Prop :=
  ∀ (s t : State) (op : Opcode) (i : Instr),
    s.halted = none → s.Fetches op → decode s.cfg.zeroHeightDraw op = .ok i → exec i s = .next t →
    (t.halted = none → step s = .next t.tick) ∧ (t.halted ≠ none → step s = .next t)

/-- R131 (the spec's decision D16): a step of a halted machine returns the recorded error and changes nothing. -/
def Obligations.HaltedStepReturnsTheSameError : Prop :=
  ∀ (s : State) (r : ErrorRecord), s.halted = some r → cycle s = .next (s, .err r) ∧ step s = .next s

/-- R133: fetch composes the two bytes at pc big-endian; when pc + 1 is outside memory the step raises
`AddressOutOfRange` at the lower out-of-range address, with no opcode (the fault is the spec's own, D10). -/
def Obligations.FetchReadsTwoBytesOrRaises : Prop :=
  (∀ s : State, s.pc.toNat + 1 < 0x1000 → ∃ op, fetch s = .ok op ∧
    op.toNat = (s.byteAt s.pc.toNat).toNat * 256 + (s.byteAt (s.pc.toNat + 1)).toNat) ∧
  (∀ s : State, s.halted = none → 0x1000 ≤ s.pc.toNat →
    step s = .next (s.haltedWith (.addressOutOfRange s.pc.toNat) none)) ∧
  (∀ s : State, s.halted = none → s.pc.toNat = 0xFFF →
    step s = .next (s.haltedWith (.addressOutOfRange 0x1000) none))

/-- R134: an opcode that decodes to `Unknown` makes the step raise `UnknownOpcode(op, pc)`. -/
def Obligations.UnknownOpcodeIsReported : Prop :=
  ∀ (s : State) (op : Opcode), s.halted = none → s.Fetches op →
    (∀ i, decode s.cfg.zeroHeightDraw op ≠ .ok i) →
    cycle s = .next (s.haltedWith (.unknownOpcode op) (some op),
      .err { error := .unknownOpcode op, op := some op, pc := s.pc })

/-- R138 (the spec's decision D15): a step that raises an error changes no state except `halted`, which holds the record it
returns. -/
def Obligations.FailingStepChangesOnlyHalted : Prop :=
  ∀ (s t : State) (r : ErrorRecord), cycle s = .next (t, .err r) →
    t.halted = some r ∧ s.OnlyChanges t [.halted] ∧ (s.halted = none → r.pc = s.pc)

/-- R136: after an instruction that raised no error the step decrements each nonzero timer once, leaves the rest as the
instruction left it, and reports the tone-expired event exactly when the sound timer goes from 1 to 0; after one that
raised an error (the spec's decision D20) no tick runs and no event is reported. -/
def Obligations.SuccessfulStepTicksTheTimers : Prop :=
  ∀ (s t : State) (op : Opcode) (i : Instr),
    s.halted = none → s.Fetches op → decode s.cfg.zeroHeightDraw op = .ok i → exec i s = .next t →
    (t.halted = none → ∃ u, cycle s = .next (u, .ok (decide (t.st = 1))) ∧
      u.dt.toNat = t.dt.toNat - 1 ∧ u.st.toNat = t.st.toNat - 1 ∧ t.OnlyChanges u [.dt, .st]) ∧
    ∀ r, t.halted = some r → cycle s = .next (t, .err r)

/-- R130 (its "It returns one outcome") and R338: every step of every state answers a state and a result; none stops the
machine from outside. -/
def Obligations.EveryStepAnswersAnOutcome : Prop :=
  ∀ s : State, ∃ t r, cycle s = .next (t, r) ∧ step s = .next t ∧ stepResult s = some r

/-! ### Encoding -/

/-- Decoding the encoding of any instruction that is one under the parameter gives it back: no field is dropped or moved. -/
def Obligations.DecodeOfEncodeIsTheInstruction : Prop :=
  ∀ (zh : ZeroHeightDraw) (i : Instr), i.wellFormed zh = true → decode zh (encode i) = .ok i

/-- The other direction: an opcode that decodes is the encoding of what it decodes to, so every bit of it is read. -/
def Obligations.DecodedOpcodesAreEncodings : Prop :=
  ∀ (zh : ZeroHeightDraw) (op : Opcode) (i : Instr), decode zh op = .ok i → i.wellFormed zh = true ∧ encode i = op

/-- R97's table: the opcodes that do not decode are exactly its groups. -/
def Obligations.UnknownOpcodesAreTheListedGroups : Prop :=
  ∀ (zh : ZeroHeightDraw) (op : Opcode),
    let t := op.toNat / 4096
    let n := op.toNat % 16
    let nn := op.toNat % 256
    (∀ i, decode zh op ≠ .ok i) ↔
      (t = 0x0 ∧ op.toNat ≠ 0x00E0 ∧ op.toNat ≠ 0x00EE) ∨
      (t = 0x5 ∧ n ≠ 0) ∨
      (t = 0x8 ∧ ((0x8 ≤ n ∧ n ≤ 0xD) ∨ n = 0xF)) ∨
      (t = 0x9 ∧ n ≠ 0) ∨
      (t = 0xD ∧ n = 0 ∧ zh = .unknown) ∨
      (t = 0xE ∧ nn ≠ 0x9E ∧ nn ≠ 0xA1) ∨
      (t = 0xF ∧ nn ≠ 0x07 ∧ nn ≠ 0x0A ∧ nn ≠ 0x15 ∧ nn ≠ 0x18 ∧ nn ≠ 0x1E ∧ nn ≠ 0x29 ∧ nn ≠ 0x33 ∧
        nn ≠ 0x55 ∧ nn ≠ 0x65)

/-- A word of each layout, written out from R96 and the source's examples (R91), decodes to its instruction. Two words do
not decode (R95, R97): 0xFFFF, and 0xD120, a draw of height 0, the latter because `decodeTableWord` takes the default
`ZERO_HEIGHT_DRAW = unknown` (log entry 1). -/
def Obligations.SampleWordsDecode : Prop :=
  decodeTableWord 16 0x00E0 = some .cls ∧ decodeTableWord 16 0x00EE = some .ret ∧
  decodeTableWord 16 0x6005 = some (.ldImm 0 0x05) ∧ decodeTableWord 16 0x8014 = some (.addReg 0 1) ∧
  decodeTableWord 16 0xD005 = some (.drw 0 0 5) ∧ decodeTableWord 16 0x2ABC = some (.call 0xABC) ∧
  decodeTableWord 16 0xE3A1 = some (.sknp 3) ∧ decodeTableWord 16 0xFC65 = some (.ldVxMem 0xC) ∧
  decodeTableWord 16 0xFFFF = none ∧ decodeTableWord 16 0xD120 = none

/-! ### Control flow -/

/-- R160: RET pops the top entry and resumes 2 after it; on an empty stack it raises `StackUnderflow`. The popped entry
stays in place. -/
def Obligations.ReturnResumesAfterTheCall : Prop :=
  (encode .ret).toNat = 0x00EE ∧
  (∀ (s : State) (k : Fin 16), s.sp.val = k.val + 1 →
    ∃ t, exec .ret s = .next t ∧ t.pc.toNat = (s.stack[k.val].toNat + 2) % 65536 ∧ t.sp.val = k.val ∧
      s.OnlyChanges t [.sp, .pc]) ∧
  ∀ s : State, s.sp.val = 0 → exec .ret s = .next (s.haltedWith .stackUnderflow (some 0x00EE))

/-- R161 and R163: JP goes to its literal address, JP V0 to V0 plus its literal address, not masked to 12 bits. -/
def Obligations.JumpsSetThePc : Prop :=
  ∀ (nnn : BitVec 12) (s : State),
    (encode (.jp nnn)).toNat = 0x1000 + nnn.toNat ∧ (encode (.jpV0 nnn)).toNat = 0xB000 + nnn.toNat ∧
    (∃ t, exec (.jp nnn) s = .next t ∧ t.pc.toNat = nnn.toNat ∧ s.OnlyChanges t [.pc]) ∧
    (∃ t, exec (.jpV0 nnn) s = .next t ∧ t.pc.toNat = ((s.reg 0).toNat + nnn.toNat) % 65536 ∧ s.OnlyChanges t [.pc])

/-- R162: CALL pushes its own address and jumps; with 16 entries in use it raises `StackOverflow` (the fault is the spec's
own, D14). -/
def Obligations.CallPushesItsOwnAddress : Prop :=
  ∀ (nnn : BitVec 12) (s : State),
    (encode (.call nnn)).toNat = 0x2000 + nnn.toNat ∧
    (∀ k : Fin 16, s.sp.val = k.val →
      ∃ t, exec (.call nnn) s = .next t ∧ t.stack[k.val] = s.pc ∧ t.sp.val = k.val + 1 ∧ t.pc.toNat = nnn.toNat ∧
        s.OnlyChanges t [.stackEntry k, .sp, .pc]) ∧
    (s.sp.val = 16 → ∃ op : Opcode, op.toNat = 0x2000 + nnn.toNat ∧
      exec (.call nnn) s = .next (s.haltedWith .stackOverflow (some op)))

/-- R164: a CALL at address a, whatever runs after it as long as the entries in use are as the CALL left them, and then a
RET: execution continues at a + 2, with sp as before the CALL. -/
def Obligations.ReturnAfterCallContinuesAfterIt : Prop :=
  ∀ (nnn : BitVec 12) (s t u : State), s.sp.val < 16 → exec (.call nnn) s = .next t →
    u.sp = t.sp → (∀ j : Fin 16, j.val < t.sp.val → u.stack[j.val] = t.stack[j.val]) →
    ∃ w, exec .ret u = .next w ∧ w.pc.toNat = (s.pc.toNat + 2) % 65536 ∧ w.sp = s.sp

/-- R180 to R183: each skip advances pc by 4 when its condition holds and by 2 when it does not, and writes nothing else. -/
def Obligations.SkipsAdvanceByFourOrTwo : Prop :=
  ∀ (x y : RegIdx) (nn : Byte) (s : State),
    ((encode (.seImm x nn)).toNat = 0x3000 + x.val * 256 + nn.toNat ∧
      (encode (.sneImm x nn)).toNat = 0x4000 + x.val * 256 + nn.toNat ∧
      (encode (.seReg x y)).toNat = 0x5000 + x.val * 256 + y.val * 16 ∧
      (encode (.sneReg x y)).toNat = 0x9000 + x.val * 256 + y.val * 16) ∧
    (∃ t, exec (.seImm x nn) s = .next t ∧
      t.pc.toNat = (s.pc.toNat + if (s.reg x).toNat = nn.toNat then 4 else 2) % 65536 ∧ s.OnlyChanges t [.pc]) ∧
    (∃ t, exec (.sneImm x nn) s = .next t ∧
      t.pc.toNat = (s.pc.toNat + if (s.reg x).toNat = nn.toNat then 2 else 4) % 65536 ∧ s.OnlyChanges t [.pc]) ∧
    (∃ t, exec (.seReg x y) s = .next t ∧
      t.pc.toNat = (s.pc.toNat + if (s.reg x).toNat = (s.reg y).toNat then 4 else 2) % 65536 ∧ s.OnlyChanges t [.pc]) ∧
    (∃ t, exec (.sneReg x y) s = .next t ∧
      t.pc.toNat = (s.pc.toNat + if (s.reg x).toNat = (s.reg y).toNat then 2 else 4) % 65536 ∧ s.OnlyChanges t [.pc])

/-! ### Register loads and the ALU -/

/-- R200, R201, R202: the loads and the flagless immediate add. -/
def Obligations.LoadsAndImmediateAddWriteOneRegister : Prop :=
  ∀ (x y : RegIdx) (nn : Byte) (s : State),
    ((encode (.ldImm x nn)).toNat = 0x6000 + x.val * 256 + nn.toNat ∧
      (encode (.addImm x nn)).toNat = 0x7000 + x.val * 256 + nn.toNat ∧
      (encode (.ldReg x y)).toNat = 0x8000 + x.val * 256 + y.val * 16) ∧
    (∃ t, exec (.ldImm x nn) s = .next t ∧ t.reg x = nn ∧ t.pc = s.pc + 2 ∧ s.OnlyChanges t [.reg x, .pc]) ∧
    (∃ t, exec (.addImm x nn) s = .next t ∧ (t.reg x).toNat = ((s.reg x).toNat + nn.toNat) % 256 ∧
      t.pc = s.pc + 2 ∧ s.OnlyChanges t [.reg x, .pc]) ∧
    (∃ t, exec (.ldReg x y) s = .next t ∧ t.reg x = s.reg y ∧ t.pc = s.pc + 2 ∧ s.OnlyChanges t [.reg x, .pc])

/-- R203, R204, R205: OR, AND and XOR act bit by bit and write no flag. -/
def Obligations.LogicOperationsActBitwise : Prop :=
  ∀ (x y : RegIdx) (s : State),
    ((encode (.orReg x y)).toNat = 0x8001 + x.val * 256 + y.val * 16 ∧
      (encode (.andReg x y)).toNat = 0x8002 + x.val * 256 + y.val * 16 ∧
      (encode (.xorReg x y)).toNat = 0x8003 + x.val * 256 + y.val * 16) ∧
    (∃ t, exec (.orReg x y) s = .next t ∧
      (∀ b, (t.reg x).getLsbD b = ((s.reg x).getLsbD b || (s.reg y).getLsbD b)) ∧
      t.pc = s.pc + 2 ∧ s.OnlyChanges t [.reg x, .pc]) ∧
    (∃ t, exec (.andReg x y) s = .next t ∧
      (∀ b, (t.reg x).getLsbD b = ((s.reg x).getLsbD b && (s.reg y).getLsbD b)) ∧
      t.pc = s.pc + 2 ∧ s.OnlyChanges t [.reg x, .pc]) ∧
    (∃ t, exec (.xorReg x y) s = .next t ∧
      (∀ b, (t.reg x).getLsbD b = ((s.reg x).getLsbD b != (s.reg y).getLsbD b)) ∧
      t.pc = s.pc + 2 ∧ s.OnlyChanges t [.reg x, .pc])

/-- R206: the sum mod 256, and VF = 1 exactly when it exceeds 255; for x = 0xF, VF ends as the carry. -/
def Obligations.AddSetsSumAndCarry : Prop :=
  ∀ (x y : RegIdx) (s : State),
    (encode (.addReg x y)).toNat = 0x8004 + x.val * 256 + y.val * 16 ∧
    ∃ t, exec (.addReg x y) s = .next t ∧
      (x ≠ 15 → (t.reg x).toNat = ((s.reg x).toNat + (s.reg y).toNat) % 256) ∧
      (t.reg 15).toNat = (if (s.reg x).toNat + (s.reg y).toNat > 255 then 1 else 0) ∧
      t.pc = s.pc + 2 ∧ s.OnlyChanges t [.reg x, .reg 15, .pc]

/-- R207 and R209: Vx − Vy and Vy − Vx mod 256, and VF = 0 exactly on a borrow; for x = 0xF, VF ends as the not-borrow. -/
def Obligations.SubtractsSetDifferenceAndNotBorrow : Prop :=
  ∀ (x y : RegIdx) (s : State),
    ((encode (.sub x y)).toNat = 0x8005 + x.val * 256 + y.val * 16 ∧
      (encode (.subn x y)).toNat = 0x8007 + x.val * 256 + y.val * 16) ∧
    (∃ t, exec (.sub x y) s = .next t ∧
      (x ≠ 15 → (t.reg x).toNat = ((s.reg x).toNat + 256 - (s.reg y).toNat) % 256) ∧
      (t.reg 15).toNat = (if (s.reg x).toNat < (s.reg y).toNat then 0 else 1) ∧
      t.pc = s.pc + 2 ∧ s.OnlyChanges t [.reg x, .reg 15, .pc]) ∧
    (∃ t, exec (.subn x y) s = .next t ∧
      (x ≠ 15 → (t.reg x).toNat = ((s.reg y).toNat + 256 - (s.reg x).toNat) % 256) ∧
      (t.reg 15).toNat = (if (s.reg y).toNat < (s.reg x).toNat then 0 else 1) ∧
      t.pc = s.pc + 2 ∧ s.OnlyChanges t [.reg x, .reg 15, .pc])

/-- R208 and R210: shifts by one of the operand that `SHIFT_SOURCE` selects, and VF = the bit shifted out. -/
def Obligations.ShiftsMoveOneBitIntoVF : Prop :=
  ∀ (x y : RegIdx) (s : State) (o : Byte), IsShiftOperand s x y o →
    ((encode (.shr x y)).toNat = 0x8006 + x.val * 256 + y.val * 16 ∧
      (encode (.shl x y)).toNat = 0x800E + x.val * 256 + y.val * 16) ∧
    (∃ t, exec (.shr x y) s = .next t ∧ (x ≠ 15 → (t.reg x).toNat = o.toNat / 2) ∧ (t.reg 15).toNat = o.toNat % 2 ∧
      t.pc = s.pc + 2 ∧ s.OnlyChanges t [.reg x, .reg 15, .pc]) ∧
    (∃ t, exec (.shl x y) s = .next t ∧ (x ≠ 15 → (t.reg x).toNat = o.toNat * 2 % 256) ∧
      (t.reg 15).toNat = o.toNat / 128 ∧ t.pc = s.pc + 2 ∧ s.OnlyChanges t [.reg x, .reg 15, .pc])

/-- R211: RND masks the next draw with its literal, and the following draw is a fresh one. The draw is a free value, and
the counter `draws` that makes the next one fresh is the model's choice (log entry 2): the statement holds whatever byte
the draw is. -/
def Obligations.RandomByteIsMaskedAndFresh : Prop :=
  ∀ (x : RegIdx) (nn : Byte) (s : State),
    (encode (.rnd x nn)).toNat = 0xC000 + x.val * 256 + nn.toNat ∧
    ∃ t, exec (.rnd x nn) s = .next t ∧
      (∀ b, (t.reg x).getLsbD b = ((Config.rnd s.draws).getLsbD b && nn.getLsbD b)) ∧
      t.draws = s.draws + 1 ∧ t.pc = s.pc + 2 ∧ s.OnlyChanges t [.reg x, .draws, .pc]

/-! ### Index register and memory transfer -/

/-- R250, R251, R252: the three instructions that set I; FX1E wraps at 2^16 and writes no flag. -/
def Obligations.IndexRegisterWrites : Prop :=
  ∀ (nnn : BitVec 12) (x : RegIdx) (s : State),
    ((encode (.ldI nnn)).toNat = 0xA000 + nnn.toNat ∧ (encode (.addIVx x)).toNat = 0xF01E + x.val * 256 ∧
      (encode (.ldFVx x)).toNat = 0xF029 + x.val * 256) ∧
    (∃ t, exec (.ldI nnn) s = .next t ∧ t.i.toNat = nnn.toNat ∧ t.pc = s.pc + 2 ∧ s.OnlyChanges t [.index, .pc]) ∧
    (∃ t, exec (.addIVx x) s = .next t ∧ t.i.toNat = (s.i.toNat + (s.reg x).toNat) % 65536 ∧
      t.pc = s.pc + 2 ∧ s.OnlyChanges t [.index, .pc]) ∧
    (∃ t, exec (.ldFVx x) s = .next t ∧ t.i.toNat = (s.reg x).toNat % 16 * 5 ∧
      t.pc = s.pc + 2 ∧ s.OnlyChanges t [.index, .pc])

/-- R253: FX33 stores the three decimal digits at I, I + 1, I + 2 when all three may be written; otherwise the lowest
address that may not raises its error and nothing is written (the faults are the spec's decisions D12 and D13). -/
def Obligations.StoreDecimalDigits : Prop :=
  ∀ (x : RegIdx) (s : State),
    (encode (.ldBVx x)).toNat = 0xF033 + x.val * 256 ∧
    ((∀ k, k < 3 → Writable s.cfg (s.i.toNat + k)) →
      ∃ t, exec (.ldBVx x) s = .next t ∧
        (t.byteAt s.i.toNat).toNat = (s.reg x).toNat / 100 ∧
        (t.byteAt (s.i.toNat + 1)).toNat = (s.reg x).toNat / 10 % 10 ∧
        (t.byteAt (s.i.toNat + 2)).toNat = (s.reg x).toNat % 10 ∧
        t.pc = s.pc + 2 ∧
        s.OnlyChanges t [.byte s.i.toNat, .byte (s.i.toNat + 1), .byte (s.i.toNat + 2), .pc]) ∧
    ∀ k e, k < 3 → (∀ j, j < k → Writable s.cfg (s.i.toNat + j)) → StoreFails s.cfg (s.i.toNat + k) e →
      exec (.ldBVx x) s = .next (s.haltedWith e (some (encode (.ldBVx x))))

/-- R254: FX55 stores V0 to Vx at I upward when every byte may be written, and moves I as `LOADSTORE_INCREMENT_I` says;
otherwise the lowest address that may not be written raises its error and nothing changes. `LOADSTORE_INCREMENT_I` is the
spec's parameter (D7). -/
def Obligations.RegisterDumpStoresAllOrNothing : Prop :=
  ∀ (x : RegIdx) (s : State),
    (encode (.ldMemVx x)).toNat = 0xF055 + x.val * 256 ∧
    ((∀ k, k ≤ x.val → Writable s.cfg (s.i.toNat + k)) →
      ∃ t, exec (.ldMemVx x) s = .next t ∧ (∀ k : RegIdx, k ≤ x → t.byteAt (s.i.toNat + k.val) = s.reg k) ∧
        IndexAfter s.cfg s.i x t.i ∧ t.pc = s.pc + 2 ∧
        s.UnchangedOutside t fun p =>
          (∃ k, k ≤ x.val ∧ p = .byte (s.i.toNat + k)) ∨ p = .index ∨ p = .pc) ∧
    ∀ k e, k ≤ x.val → (∀ j, j < k → Writable s.cfg (s.i.toNat + j)) → StoreFails s.cfg (s.i.toNat + k) e →
      exec (.ldMemVx x) s = .next (s.haltedWith e (some (encode (.ldMemVx x))))

/-- R255: FX65 loads V0 to Vx from I upward when every byte is inside memory, and moves I as `LOADSTORE_INCREMENT_I` says;
otherwise the lowest address outside memory raises `AddressOutOfRange` (D12) and no register changes. -/
def Obligations.RegisterLoadReadsAllOrNothing : Prop :=
  ∀ (x : RegIdx) (s : State),
    (encode (.ldVxMem x)).toNat = 0xF065 + x.val * 256 ∧
    (s.i.toNat + x.val < 0x1000 →
      ∃ t, exec (.ldVxMem x) s = .next t ∧ (∀ k : RegIdx, k ≤ x → t.reg k = s.byteAt (s.i.toNat + k.val)) ∧
        IndexAfter s.cfg s.i x t.i ∧ t.pc = s.pc + 2 ∧
        s.UnchangedOutside t fun p => (∃ k : RegIdx, k ≤ x ∧ p = .reg k) ∨ p = .index ∨ p = .pc) ∧
    ∀ k, k ≤ x.val → (∀ j, j < k → s.i.toNat + j < 0x1000) → 0x1000 ≤ s.i.toNat + k →
      exec (.ldVxMem x) s = .next (s.haltedWith (.addressOutOfRange (s.i.toNat + k)) (some (encode (.ldVxMem x))))

/-! ### Display -/

/-- R281: CLS turns every pixel off and sets dirty, even on a clear buffer. -/
def Obligations.ClearScreenBlanksTheDisplay : Prop :=
  (encode .cls).toNat = 0x00E0 ∧
  ∀ s : State, ∃ t, exec .cls s = .next t ∧ (∀ r c, t.pixel r c = false) ∧ t.dirty = true ∧ t.pc = s.pc + 2 ∧
    s.UnchangedOutside t fun p => (∃ r c, p = .pixel r c) ∨ p = .dirty ∨ p = .pc

/-- R280 and R282: a draw whose sprite bytes are all inside memory XORs sprite row r, column c (bit 7 − c of byte I + r)
into display row (Vy mod 32 + r) mod 32, column (Vx mod 64 + c) mod 64, leaves every other pixel, reports in VF whether an
on pixel was turned off, and sets dirty; a sprite byte outside memory raises `AddressOutOfRange` before any pixel changes.
Height 0 decodes only under `ZERO_HEIGHT_DRAW = empty` (the spec's parameter, D8); that `exec` of it under `unknown`, where no
opcode decodes to it, is the empty draw too is the model's choice (log entry 7). -/
def Obligations.DrawXorsTheSpriteAndReportsCollision : Prop :=
  ∀ (x y : RegIdx) (n : Fin 16) (s : State),
    let cx := (s.reg x).toNat % 64
    let cy := (s.reg y).toNat % 32
    let bit := fun r c => (s.byteAt (s.i.toNat + r)).getLsbD (7 - c)
    (encode (.drw x y n)).toNat = 0xD000 + x.val * 256 + y.val * 16 + n.val ∧
    (∀ op : Opcode, op.toNat = 0xD000 + x.val * 256 + y.val * 16 →
      decode .unknown op = .error (.unknown op) ∧ decode .empty op = .ok (.drw x y 0)) ∧
    ((∀ r, r < n.val → s.i.toNat + r < 0x1000) →
      ∃ t, exec (.drw x y n) s = .next t ∧
        (∀ r c pr pcol, r < n.val → c < 8 → LandsOn cx cy r c pr pcol →
          t.pixel pr pcol = (s.pixel pr pcol != bit r c)) ∧
        (∀ pr pcol, (∀ r c, r < n.val → c < 8 → ¬ LandsOn cx cy r c pr pcol) → t.pixel pr pcol = s.pixel pr pcol) ∧
        (t.reg 15 = 1 ∨ t.reg 15 = 0) ∧
        (t.reg 15 = 1 ↔ ∃ pr pcol, s.pixel pr pcol = true ∧ t.pixel pr pcol = false) ∧
        t.dirty = true ∧ t.pc = s.pc + 2 ∧
        s.UnchangedOutside t fun p => (∃ r c, p = .pixel r c) ∨ p = .reg 15 ∨ p = .dirty ∨ p = .pc) ∧
    ∀ r, r < n.val → (∀ j, j < r → s.i.toNat + j < 0x1000) → 0x1000 ≤ s.i.toNat + r →
      exec (.drw x y n) s = .next (s.haltedWith (.addressOutOfRange (s.i.toNat + r)) (some (encode (.drw x y n))))

/-- R283: two identical draws in a row, with the same origin registers, restore every pixel, and the second reports a
collision exactly when the first turned on a pixel; from a clear buffer, exactly when the sprite has a 1 bit. For height 0
under `ZERO_HEIGHT_DRAW = unknown` this rests on the model's choice of log entry 7. -/
def Obligations.DrawingTwiceRestoresTheDisplay : Prop :=
  ∀ (x y : RegIdx) (n : Fin 16) (s t : State),
    (∀ r, r < n.val → s.i.toNat + r < 0x1000) → exec (.drw x y n) s = .next t →
    t.reg x = s.reg x → t.reg y = s.reg y →
    ∃ u, exec (.drw x y n) t = .next u ∧ (∀ r c, u.pixel r c = s.pixel r c) ∧
      (u.reg 15 = 1 ↔ ∃ r c, s.pixel r c = false ∧ t.pixel r c = true) ∧
      ((∀ r c, s.pixel r c = false) →
        (u.reg 15 = 1 ↔ ∃ r c, r < n.val ∧ c < 8 ∧ (s.byteAt (s.i.toNat + r)).getLsbD c = true))

/-! ### Keypad and timers -/

/-- R300, R301 and R306: the keypad skips test the level of the key that the register value selects; a value above 0xF
raises `KeyIndexOutOfRange` under `KEY_INDEX = fault` (the spec's parameter, D18). -/
def Obligations.KeypadSkipsTestTheSelectedKey : Prop :=
  ∀ (x : RegIdx) (s : State),
    ((encode (.skp x)).toNat = 0xE09E + x.val * 256 ∧ (encode (.sknp x)).toNat = 0xE0A1 + x.val * 256) ∧
    (∀ k, KeySelected s.cfg (s.reg x) k →
      (∃ t, exec (.skp x) s = .next t ∧ t.pc.toNat = (s.pc.toNat + if s.key k = true then 4 else 2) % 65536 ∧
        s.OnlyChanges t [.pc]) ∧
      ∃ t, exec (.sknp x) s = .next t ∧ t.pc.toNat = (s.pc.toNat + if s.key k = true then 2 else 4) % 65536 ∧
        s.OnlyChanges t [.pc]) ∧
    (15 < (s.reg x).toNat → s.cfg.keyIndex = .fault →
      exec (.skp x) s = .next (s.haltedWith (.keyIndexOutOfRange (s.reg x)) (some (encode (.skp x)))) ∧
      exec (.sknp x) s = .next (s.haltedWith (.keyIndexOutOfRange (s.reg x)) (some (encode (.sknp x)))))

/-- R302 and the instruction part of R304 and R305: FX07 reads DT before the tick; FX15 and FX18 write the timers. -/
def Obligations.TimerTransfersMoveOneByte : Prop :=
  ∀ (x : RegIdx) (s : State),
    ((encode (.ldVxDt x)).toNat = 0xF007 + x.val * 256 ∧ (encode (.ldDtVx x)).toNat = 0xF015 + x.val * 256 ∧
      (encode (.ldStVx x)).toNat = 0xF018 + x.val * 256) ∧
    (∃ t, exec (.ldVxDt x) s = .next t ∧ t.reg x = s.dt ∧ t.pc = s.pc + 2 ∧ s.OnlyChanges t [.reg x, .pc]) ∧
    (∃ t, exec (.ldDtVx x) s = .next t ∧ t.dt = s.reg x ∧ t.pc = s.pc + 2 ∧ s.OnlyChanges t [.dt, .pc]) ∧
    (∃ t, exec (.ldStVx x) s = .next t ∧ t.st = s.reg x ∧ t.pc = s.pc + 2 ∧ s.OnlyChanges t [.st, .pc])

/-- R391: the tick runs in the step that writes a timer. FX15 leaves DT one lower at the end of its step, an FX07 in the
next step reads that value, and FX18 of 1 reports the tone-expired event in the same step. -/
def Obligations.TimerWritesAreTickedInTheSameStep : Prop :=
  ∀ (x : RegIdx) (s : State), s.halted = none →
    (s.Fetches (encode (.ldDtVx x)) →
      ∃ t, cycle s = .next (t, .ok (decide (s.st = 1))) ∧ t.dt.toNat = (s.reg x).toNat - 1 ∧
        s.OnlyChanges t [.dt, .st, .pc] ∧
        ∀ y, t.Fetches (encode (.ldVxDt y)) → ∃ u, step t = .next u ∧ (u.reg y).toNat = (s.reg x).toNat - 1) ∧
    (s.Fetches (encode (.ldStVx x)) →
      ∃ t, cycle s = .next (t, .ok (decide (s.reg x = 1))) ∧ t.st.toNat = (s.reg x).toNat - 1 ∧
        s.OnlyChanges t [.dt, .st, .pc])

/-- R303: FX0A with no key pressed changes nothing; otherwise it loads the index of a pressed key and advances. Which
pressed key is the free value `key_choice`, and its counter `draws` is the model's choice (log entry 3): the statement holds
whichever key it is. -/
def Obligations.KeyWaitBlocksOrLoadsAPressedKey : Prop :=
  ∀ (x : RegIdx) (s : State),
    (encode (.ldVxK x)).toNat = 0xF00A + x.val * 256 ∧
    ((∀ k, s.key k = false) → exec (.ldVxK x) s = .next s) ∧
    ((∃ k, s.key k = true) →
      ∃ t k, exec (.ldVxK x) s = .next t ∧ s.key k = true ∧ (t.reg x).toNat = k.val ∧ t.draws = s.draws + 1 ∧
        t.pc = s.pc + 2 ∧ s.OnlyChanges t [.reg x, .draws, .pc])

/-- R303's draw excludes no implementation: every pressed key is the one loaded for some value of `key_choice`. How a
number names a key is the model's choice (log entry 3). -/
def Obligations.EveryPressedKeyIsSomeChoice : Prop :=
  ∀ (x : RegIdx) (s : State) (k : KeyIdx), s.key k = true →
    ∃ choice, ((keyWaitWith choice x s).reg x).toNat = k.val

/-- R392 and R352: each step of a blocked FX0A is a whole step that keeps pc and ticks the timers; nothing else changes, so
the next step executes it again. -/
def Obligations.BlockedKeyWaitOnlyTicks : Prop :=
  ∀ (x : RegIdx) (s : State), s.halted = none → s.Fetches (encode (.ldVxK x)) → (∀ k, s.key k = false) →
    ∃ t, cycle s = .next (t, .ok (decide (s.st = 1))) ∧ t.dt.toNat = s.dt.toNat - 1 ∧ t.st.toNat = s.st.toNat - 1 ∧
      s.OnlyChanges t [.dt, .st] ∧ t.Fetches (encode (.ldVxK x))

/-! ### Rules of the whole machine -/

/-- R38 (its column of writes) with R138: an instruction either raises an error and changes nothing but `halted`, or leaves
`halted` alone and writes only what its row of the table lists, and the model's own counter `draws` where the row lists a
draw as read (log entries 2 and 3). -/
def Obligations.EveryInstructionWritesOnlyItsRow : Prop :=
  ∀ (i : Instr) (s t : State), exec i s = .next t →
    (∃ e, t = s.haltedWith e (some (encode i))) ∨ s.UnchangedOutside t (rowWrites s i)

/-- R22: a step changes VF only when it executes a flag writer or an instruction that names VF as its destination. -/
def Obligations.OnlyFlagWritersAndDestinationsChangeVF : Prop :=
  ∀ s t : State, step s = .next t → t.reg 15 ≠ s.reg 15 →
    ∃ op i, s.Fetches op ∧ decode s.cfg.zeroHeightDraw op = .ok i ∧ mayWriteVF i

/-- R26 and R37: a step moves sp only by executing CALL, by one up, or RET, by one down, and writes a stack entry only by
CALL, at sp. -/
def Obligations.OnlyCallAndReturnUseTheStack : Prop :=
  ∀ s t : State, step s = .next t →
    (t.sp ≠ s.sp →
      (∃ nnn, s.Fetches (encode (.call nnn)) ∧ t.sp.val = s.sp.val + 1) ∨
      (s.Fetches (encode .ret) ∧ t.sp.val + 1 = s.sp.val)) ∧
    ∀ j : Fin 16, t.stack[j.val] ≠ s.stack[j.val] →
      j.val = s.sp.val ∧ t.stack[j.val] = s.pc ∧ ∃ nnn, s.Fetches (encode (.call nnn))

/-- R28, R29 and R346: a step changes the display only by executing CLS or DRW, changes dirty only by executing one of
them and never clears it, and never changes a key or a parameter. That a parameter is a field of the state is the model's choice (log entry 1). -/
def Obligations.DevicesChangeOnlyAsListed : Prop :=
  ∀ s t : State, step s = .next t →
    (∀ r c, t.pixel r c ≠ s.pixel r c → s.Fetches 0x00E0 ∨ ∃ x y n, s.Fetches (encode (.drw x y n))) ∧
    (t.dirty ≠ s.dirty → s.Fetches 0x00E0 ∨ ∃ x y n, s.Fetches (encode (.drw x y n))) ∧
    (s.dirty = true → t.dirty = true) ∧ (∀ k, t.key k = s.key k) ∧ t.cfg = s.cfg

/-- R60 and R62: a step changes a memory byte only by executing FX33 or FX55, and only inside memory. -/
def Obligations.OnlyStoresChangeMemory : Prop :=
  ∀ s t : State, step s = .next t → ∀ a, t.byteAt a ≠ s.byteAt a →
    a < 0x1000 ∧ ∃ x, s.Fetches (encode (.ldBVx x)) ∨ s.Fetches (encode (.ldMemVx x))

/-- R27 and R344: a successful step lowers DT by one, down to 0, unless it executes FX15, and ST unless it executes FX18. -/
def Obligations.TimersCountDownOncePerSuccessfulStep : Prop :=
  ∀ (s t : State) (tone : Bool), cycle s = .next (t, .ok tone) →
    (t.dt.toNat = s.dt.toNat - 1 ∨ ∃ x, s.Fetches (encode (.ldDtVx x))) ∧
    (t.st.toNat = s.st.toNat - 1 ∨ ∃ x, s.Fetches (encode (.ldStVx x))) ∧
    (tone = true → t.st = 0)

/-- R77 and R393: a dump over the next instruction takes effect at the next fetch: the step after it fetches the two bytes
just stored. -/
def Obligations.StoredCodeIsFetchedNext : Prop :=
  ∀ (x : RegIdx) (s : State), s.halted = none → s.Fetches (encode (.ldMemVx x)) → 1 ≤ x.val →
    s.i.toNat = s.pc.toNat + 2 → (∀ k, k ≤ x.val → Writable s.cfg (s.i.toNat + k)) →
    ∃ t op, step s = .next t ∧ fetch t = .ok op ∧ op.toNat = (s.reg 0).toNat * 256 + (s.reg 1).toNat

/-- R396's caution: a jump to itself does not stop the core: each step ticks both timers, reporting the tone-expired event
as any other, changes nothing else, and the program is still finished after it. -/
def Obligations.SelfJumpKeepsTicking : Prop :=
  ∀ (nnn : BitVec 12) (s : State), s.halted = none → s.Fetches (encode (.jp nnn)) → nnn.toNat = s.pc.toNat →
    ∃ t, cycle s = .next (t, .ok (decide (s.st = 1))) ∧ t.dt.toNat = s.dt.toNat - 1 ∧ t.st.toNat = s.st.toNat - 1 ∧
      s.OnlyChanges t [.dt, .st] ∧ t.Finished

/-! ### Invariants -/

/-- The state after reset, and the one `initialize()` leaves from any state, satisfy the invariant. Reset takes the default
parameters, and `initialize()` keeps the parameters and the count of draws: the model's choice (log entries 1 and 10). -/
def Obligations.ResetStateMeetsTheInvariant : Prop :=
  State.reset.Inv ∧ State.reset.cfg = Config.default ∧
    ∀ s : State, s.hostInit.Inv ∧ s.hostInit.cfg = s.cfg ∧ s.hostInit.draws = s.draws

/-- Every step keeps the invariant: memory stays canonical (log entry 9) and inside 4096 bytes, pc stays at most 0x10FE and every stack
entry at most 0xFFE (R135), and a halted machine's record fits its error and names the pc (R330, R138). -/
def Obligations.EveryStepKeepsTheInvariant : Prop :=
  ∀ s t : State, s.Inv → step s = .next t → t.Inv

/-- From any state that satisfies it, the invariant holds after any sequence of steps and host operations (R348, R349). -/
def Obligations.EveryRunKeepsTheInvariant : Prop :=
  ∀ (moves : List Move) (s : State), s.Inv → (s.run moves).Inv

/-- R62 and R64: under `RESERVED_WRITE = fault` no sequence of steps and host operations changes a byte below 0x200: the
font and the reserved region read as `initialize()` left them. The parameters are a field that nothing changes (log
entry 1). -/
def Obligations.LowMemoryStaysIntact : Prop :=
  ∀ (moves : List Move) (s : State), s.cfg.reservedWrite = .fault → s.LowMemoryIntact →
    (s.run moves).LowMemoryIntact ∧ (s.run moves).cfg = s.cfg

/-- R342: once halted, a machine stays halted with the same record through every sequence of moves without
`initialize()`, and its registers, stack, display and timers (R397) do not move. -/
def Obligations.HaltedUntilInitialize : Prop :=
  ∀ (moves : List Move) (s : State) (r : ErrorRecord), s.halted = some r → Move.host .init ∉ moves →
    (s.run moves).halted = some r ∧
      s.UnchangedOutside (s.run moves) fun p => (∃ a, p = .byte a) ∨ (∃ k, p = .key k) ∨ p = .dirty

/-- The canonical form (log entry 9) makes equal memories equal data: two canonical lists that read alike are the same
list. -/
def Obligations.MemoriesThatReadAlikeAreEqual : Prop :=
  ∀ (font : Font) (m m' : Memory), Memory.wf font m = true → Memory.wf font m' = true →
    (∀ a, Memory.read font m a = Memory.read font m' a) → m = m'

/-! ### What an instruction cannot see -/

/-- R30: only EX9E, EXA1 and FX0A read the keypad: any other instruction does the same whatever keys are pressed. For RND
this compares the two states for the same draw: that they share it rests on the model's counter `draws` (log entry 2). -/
def Obligations.OtherInstructionsIgnoreTheKeypad : Prop :=
  ∀ (i : Instr) (s t : State) (keys : Keypad),
    (∀ x, i ≠ .skp x ∧ i ≠ .sknp x ∧ i ≠ .ldVxK x) → exec i s = .next t →
    exec i { s with keys := keys } = .next { t with keys := keys }

/-- R27: no instruction reads ST: two machines that differ only in it do the same, but for ST itself. For RND and FX0A this
compares them for the same draw: that they share it rests on the model's counter `draws` (log entries 2 and 3). -/
def Obligations.NoInstructionReadsTheSoundTimer : Prop :=
  ∀ (i : Instr) (s t : State) (st : Byte), exec i s = .next t →
    ∃ t', exec i { s with st := st } = .next t' ∧ t.OnlyChanges t' [.st]

/-- R26: an entry at index sp or above is not observable: machines that differ only in such entries return the same result
from a step and still differ only in such entries after it. For RND and FX0A this compares them for the same draw: that
they share it rests on the model's counter `draws` (log entries 2 and 3). -/
def Obligations.EntriesAboveTheTopAreNotObservable : Prop :=
  ∀ (s : State) (stack : Vector Addr 16), (∀ j : Fin 16, j.val < s.sp.val → stack[j.val] = s.stack[j.val]) →
    ∃ t r stack', cycle s = .next (t, r) ∧ cycle { s with stack := stack } = .next ({ t with stack := stack' }, r) ∧
      ∀ j : Fin 16, j.val < t.sp.val → stack'[j.val] = t.stack[j.val]
end

