-- ==== Sys2Proof/Laws/Decode.lean ====
section
/-! SUPPORT. The fields of R91 read back from the layouts of R92, and the layouts rebuilt from the fields: what every round
trip between decode and encode rests on. -/

namespace Sys2Proof

@[simp] theorem nibbleIdx_idxNibble (k : Fin 16) : nibbleIdx (idxNibble k) = k := by
  apply Fin.ext
  simp only [nibbleIdx, idxNibble, BitVec.toNat_ofNat]
  exact Nat.mod_eq_of_lt k.isLt

@[simp] theorem idxNibble_nibbleIdx (b : BitVec 4) : idxNibble (nibbleIdx b) = b := by
  simp [nibbleIdx, idxNibble]

theorem idxNibble_toNat (k : Fin 16) : (idxNibble k).toNat = k.val := by
  simp only [idxNibble, BitVec.toNat_ofNat]
  exact Nat.mod_eq_of_lt k.isLt

/-! ### Layouts as numbers -/

theorem layoutXYN_toNat (t x y n : BitVec 4) :
    (layoutXYN t x y n).toNat = t.toNat * 4096 + x.toNat * 256 + y.toNat * 16 + n.toNat := by
  have h1 := x.isLt
  have h2 := y.isLt
  have h3 := n.isLt
  simp only [layoutXYN, BitVec.toNat_append]
  rw [← Nat.shiftLeft_add_eq_or_of_lt h1, ← Nat.shiftLeft_add_eq_or_of_lt h2, ← Nat.shiftLeft_add_eq_or_of_lt h3]
  simp only [Nat.shiftLeft_eq]
  omega

theorem layoutXNN_toNat (t x : BitVec 4) (nn : BitVec 8) :
    (layoutXNN t x nn).toNat = t.toNat * 4096 + x.toNat * 256 + nn.toNat := by
  have h1 := x.isLt
  have h2 := nn.isLt
  simp only [layoutXNN, BitVec.toNat_append]
  rw [← Nat.shiftLeft_add_eq_or_of_lt h1, ← Nat.shiftLeft_add_eq_or_of_lt h2]
  simp only [Nat.shiftLeft_eq]
  omega

theorem layoutNNN_toNat (t : BitVec 4) (nnn : BitVec 12) :
    (layoutNNN t nnn).toNat = t.toNat * 4096 + nnn.toNat := by
  have h1 := nnn.isLt
  simp only [layoutNNN, BitVec.toNat_append]
  rw [← Nat.shiftLeft_add_eq_or_of_lt h1]
  simp only [Nat.shiftLeft_eq]

/-! ### Fields as numbers -/

theorem fieldT_toNat (op : Opcode) : (fieldT op).toNat = op.toNat / 4096 := by
  have := op.isLt
  simp only [fieldT, BitVec.extractLsb'_toNat, Nat.shiftRight_eq_div_pow]
  omega

theorem fieldX_val (op : Opcode) : (fieldX op).val = op.toNat / 256 % 16 := by
  simp only [fieldX, nibbleIdx, BitVec.extractLsb'_toNat, Nat.shiftRight_eq_div_pow]

theorem fieldY_val (op : Opcode) : (fieldY op).val = op.toNat / 16 % 16 := by
  simp only [fieldY, nibbleIdx, BitVec.extractLsb'_toNat, Nat.shiftRight_eq_div_pow]

theorem fieldN_toNat (op : Opcode) : (fieldN op).toNat = op.toNat % 16 := by
  simp only [fieldN, BitVec.extractLsb'_toNat, Nat.shiftRight_zero]

theorem fieldNN_toNat (op : Opcode) : (fieldNN op).toNat = op.toNat % 256 := by
  simp only [fieldNN, BitVec.extractLsb'_toNat, Nat.shiftRight_zero]

theorem fieldNNN_toNat (op : Opcode) : (fieldNNN op).toNat = op.toNat % 4096 := by
  simp only [fieldNNN, BitVec.extractLsb'_toNat, Nat.shiftRight_zero]

/-! ### Fields of layouts -/

@[simp] theorem fieldT_layoutXYN (t x y n : BitVec 4) : fieldT (layoutXYN t x y n) = t := by
  apply BitVec.eq_of_toNat_eq
  rw [fieldT_toNat, layoutXYN_toNat]
  omega

@[simp] theorem fieldX_layoutXYN (t x y n : BitVec 4) : fieldX (layoutXYN t x y n) = nibbleIdx x := by
  apply Fin.ext
  rw [fieldX_val, layoutXYN_toNat]
  simp only [nibbleIdx]
  omega

@[simp] theorem fieldY_layoutXYN (t x y n : BitVec 4) : fieldY (layoutXYN t x y n) = nibbleIdx y := by
  apply Fin.ext
  rw [fieldY_val, layoutXYN_toNat]
  simp only [nibbleIdx]
  omega

@[simp] theorem fieldN_layoutXYN (t x y n : BitVec 4) : fieldN (layoutXYN t x y n) = n := by
  apply BitVec.eq_of_toNat_eq
  rw [fieldN_toNat, layoutXYN_toNat]
  omega

@[simp] theorem fieldT_layoutXNN (t x : BitVec 4) (nn : BitVec 8) : fieldT (layoutXNN t x nn) = t := by
  apply BitVec.eq_of_toNat_eq
  rw [fieldT_toNat, layoutXNN_toNat]
  omega

@[simp] theorem fieldX_layoutXNN (t x : BitVec 4) (nn : BitVec 8) : fieldX (layoutXNN t x nn) = nibbleIdx x := by
  apply Fin.ext
  rw [fieldX_val, layoutXNN_toNat]
  simp only [nibbleIdx]
  omega

@[simp] theorem fieldNN_layoutXNN (t x : BitVec 4) (nn : BitVec 8) : fieldNN (layoutXNN t x nn) = nn := by
  apply BitVec.eq_of_toNat_eq
  rw [fieldNN_toNat, layoutXNN_toNat]
  omega

@[simp] theorem fieldT_layoutNNN (t : BitVec 4) (nnn : BitVec 12) : fieldT (layoutNNN t nnn) = t := by
  apply BitVec.eq_of_toNat_eq
  rw [fieldT_toNat, layoutNNN_toNat]
  omega

@[simp] theorem fieldNNN_layoutNNN (t : BitVec 4) (nnn : BitVec 12) : fieldNNN (layoutNNN t nnn) = nnn := by
  apply BitVec.eq_of_toNat_eq
  rw [fieldNNN_toNat, layoutNNN_toNat]
  omega

/-! ### Layouts of fields -/

theorem layoutXYN_fields (op : Opcode) :
    layoutXYN (fieldT op) (idxNibble (fieldX op)) (idxNibble (fieldY op)) (fieldN op) = op := by
  have := op.isLt
  apply BitVec.eq_of_toNat_eq
  rw [layoutXYN_toNat, idxNibble_toNat, idxNibble_toNat, fieldT_toNat, fieldX_val, fieldY_val, fieldN_toNat]
  omega

theorem layoutXNN_fields (op : Opcode) : layoutXNN (fieldT op) (idxNibble (fieldX op)) (fieldNN op) = op := by
  have := op.isLt
  apply BitVec.eq_of_toNat_eq
  rw [layoutXNN_toNat, idxNibble_toNat, fieldT_toNat, fieldX_val, fieldNN_toNat]
  omega

theorem layoutNNN_fields (op : Opcode) : layoutNNN (fieldT op) (fieldNNN op) = op := by
  have := op.isLt
  apply BitVec.eq_of_toNat_eq
  rw [layoutNNN_toNat, fieldT_toNat, fieldNNN_toNat]
  omega

/-! ### Rejection -/

/-- An opcode that does not decode is rejected by its own value (R95, R97). -/
theorem decode_error {zh : ZeroHeightDraw} {op : Opcode} {d : DecodeError} (h : decode zh op = .error d) :
    d = .unknown op := by
  unfold decode decodeZero decodeAlu decodeDraw decodeKey decodeMisc at h
  repeat' split at h
  all_goals first
    | (cases h; rfl)
    | cases h

/-! ### Bytes of an opcode -/

theorem composeOpcode_toNat (hi lo : Byte) : (composeOpcode hi lo).toNat = hi.toNat * 256 + lo.toNat := by
  have h := lo.isLt
  simp only [composeOpcode, BitVec.toNat_append]
  rw [← Nat.shiftLeft_add_eq_or_of_lt h]
  simp only [Nat.shiftLeft_eq]

theorem opcodeHigh_toNat (op : Opcode) : (opcodeHigh op).toNat = op.toNat / 256 := by
  have := op.isLt
  simp only [opcodeHigh, BitVec.extractLsb'_toNat, Nat.shiftRight_eq_div_pow]
  omega

theorem opcodeLow_toNat (op : Opcode) : (opcodeLow op).toNat = op.toNat % 256 := by
  simp only [opcodeLow, BitVec.extractLsb'_toNat, Nat.shiftRight_zero]

/-- The two bytes of an opcode, high byte first, compose to it (R66). -/
@[simp] theorem composeOpcode_bytes (op : Opcode) : composeOpcode (opcodeHigh op) (opcodeLow op) = op := by
  apply BitVec.eq_of_toNat_eq
  rw [composeOpcode_toNat, opcodeHigh_toNat, opcodeLow_toNat]
  omega

end Sys2Proof
end

