-- ==== Sys2Proof/Laws/State.lean ====
section
/-! SUPPORT. What each named update of the state does to each field: one lemma per field per update, so that no later
proof unfolds a record update; and the reads of registers, keys and pixels after them. -/

namespace Sys2Proof.Machine

/-! ### `setReg` -/

@[simp] theorem State.setReg_cfg (s : State) (k : RegIdx) (b : Byte) : (s.setReg k b).cfg = s.cfg := rfl
@[simp] theorem State.setReg_mem (s : State) (k : RegIdx) (b : Byte) : (s.setReg k b).mem = s.mem := rfl
@[simp] theorem State.setReg_v (s : State) (k : RegIdx) (b : Byte) : (s.setReg k b).v = s.v.set k.val b k.isLt := rfl
@[simp] theorem State.setReg_i (s : State) (k : RegIdx) (b : Byte) : (s.setReg k b).i = s.i := rfl
@[simp] theorem State.setReg_pc (s : State) (k : RegIdx) (b : Byte) : (s.setReg k b).pc = s.pc := rfl
@[simp] theorem State.setReg_stack (s : State) (k : RegIdx) (b : Byte) : (s.setReg k b).stack = s.stack := rfl
@[simp] theorem State.setReg_sp (s : State) (k : RegIdx) (b : Byte) : (s.setReg k b).sp = s.sp := rfl
@[simp] theorem State.setReg_dt (s : State) (k : RegIdx) (b : Byte) : (s.setReg k b).dt = s.dt := rfl
@[simp] theorem State.setReg_st (s : State) (k : RegIdx) (b : Byte) : (s.setReg k b).st = s.st := rfl
@[simp] theorem State.setReg_fb (s : State) (k : RegIdx) (b : Byte) : (s.setReg k b).fb = s.fb := rfl
@[simp] theorem State.setReg_dirty (s : State) (k : RegIdx) (b : Byte) : (s.setReg k b).dirty = s.dirty := rfl
@[simp] theorem State.setReg_keys (s : State) (k : RegIdx) (b : Byte) : (s.setReg k b).keys = s.keys := rfl
@[simp] theorem State.setReg_halted (s : State) (k : RegIdx) (b : Byte) : (s.setReg k b).halted = s.halted := rfl
@[simp] theorem State.setReg_draws (s : State) (k : RegIdx) (b : Byte) : (s.setReg k b).draws = s.draws := rfl

/-! ### `advance` -/

@[simp] theorem State.advance_cfg (s : State) (k : Addr) : (s.advance k).cfg = s.cfg := rfl
@[simp] theorem State.advance_mem (s : State) (k : Addr) : (s.advance k).mem = s.mem := rfl
@[simp] theorem State.advance_v (s : State) (k : Addr) : (s.advance k).v = s.v := rfl
@[simp] theorem State.advance_i (s : State) (k : Addr) : (s.advance k).i = s.i := rfl
@[simp] theorem State.advance_pc (s : State) (k : Addr) : (s.advance k).pc = s.pc + k := rfl
@[simp] theorem State.advance_stack (s : State) (k : Addr) : (s.advance k).stack = s.stack := rfl
@[simp] theorem State.advance_sp (s : State) (k : Addr) : (s.advance k).sp = s.sp := rfl
@[simp] theorem State.advance_dt (s : State) (k : Addr) : (s.advance k).dt = s.dt := rfl
@[simp] theorem State.advance_st (s : State) (k : Addr) : (s.advance k).st = s.st := rfl
@[simp] theorem State.advance_fb (s : State) (k : Addr) : (s.advance k).fb = s.fb := rfl
@[simp] theorem State.advance_dirty (s : State) (k : Addr) : (s.advance k).dirty = s.dirty := rfl
@[simp] theorem State.advance_keys (s : State) (k : Addr) : (s.advance k).keys = s.keys := rfl
@[simp] theorem State.advance_halted (s : State) (k : Addr) : (s.advance k).halted = s.halted := rfl
@[simp] theorem State.advance_draws (s : State) (k : Addr) : (s.advance k).draws = s.draws := rfl

/-! ### `skipIf` -/

@[simp] theorem State.skipIf_cfg (s : State) (c : Bool) : (s.skipIf c).cfg = s.cfg := rfl
@[simp] theorem State.skipIf_mem (s : State) (c : Bool) : (s.skipIf c).mem = s.mem := rfl
@[simp] theorem State.skipIf_v (s : State) (c : Bool) : (s.skipIf c).v = s.v := rfl
@[simp] theorem State.skipIf_i (s : State) (c : Bool) : (s.skipIf c).i = s.i := rfl
@[simp] theorem State.skipIf_pc (s : State) (c : Bool) : (s.skipIf c).pc = s.pc + (if c then 4 else 2) := rfl
@[simp] theorem State.skipIf_stack (s : State) (c : Bool) : (s.skipIf c).stack = s.stack := rfl
@[simp] theorem State.skipIf_sp (s : State) (c : Bool) : (s.skipIf c).sp = s.sp := rfl
@[simp] theorem State.skipIf_dt (s : State) (c : Bool) : (s.skipIf c).dt = s.dt := rfl
@[simp] theorem State.skipIf_st (s : State) (c : Bool) : (s.skipIf c).st = s.st := rfl
@[simp] theorem State.skipIf_fb (s : State) (c : Bool) : (s.skipIf c).fb = s.fb := rfl
@[simp] theorem State.skipIf_dirty (s : State) (c : Bool) : (s.skipIf c).dirty = s.dirty := rfl
@[simp] theorem State.skipIf_keys (s : State) (c : Bool) : (s.skipIf c).keys = s.keys := rfl
@[simp] theorem State.skipIf_halted (s : State) (c : Bool) : (s.skipIf c).halted = s.halted := rfl
@[simp] theorem State.skipIf_draws (s : State) (c : Bool) : (s.skipIf c).draws = s.draws := rfl

/-! ### `jump` -/

@[simp] theorem State.jump_cfg (s : State) (a : Addr) : (s.jump a).cfg = s.cfg := rfl
@[simp] theorem State.jump_mem (s : State) (a : Addr) : (s.jump a).mem = s.mem := rfl
@[simp] theorem State.jump_v (s : State) (a : Addr) : (s.jump a).v = s.v := rfl
@[simp] theorem State.jump_i (s : State) (a : Addr) : (s.jump a).i = s.i := rfl
@[simp] theorem State.jump_pc (s : State) (a : Addr) : (s.jump a).pc = a := rfl
@[simp] theorem State.jump_stack (s : State) (a : Addr) : (s.jump a).stack = s.stack := rfl
@[simp] theorem State.jump_sp (s : State) (a : Addr) : (s.jump a).sp = s.sp := rfl
@[simp] theorem State.jump_dt (s : State) (a : Addr) : (s.jump a).dt = s.dt := rfl
@[simp] theorem State.jump_st (s : State) (a : Addr) : (s.jump a).st = s.st := rfl
@[simp] theorem State.jump_fb (s : State) (a : Addr) : (s.jump a).fb = s.fb := rfl
@[simp] theorem State.jump_dirty (s : State) (a : Addr) : (s.jump a).dirty = s.dirty := rfl
@[simp] theorem State.jump_keys (s : State) (a : Addr) : (s.jump a).keys = s.keys := rfl
@[simp] theorem State.jump_halted (s : State) (a : Addr) : (s.jump a).halted = s.halted := rfl
@[simp] theorem State.jump_draws (s : State) (a : Addr) : (s.jump a).draws = s.draws := rfl

/-! ### `setIndex` -/

@[simp] theorem State.setIndex_cfg (s : State) (a : Addr) : (s.setIndex a).cfg = s.cfg := rfl
@[simp] theorem State.setIndex_mem (s : State) (a : Addr) : (s.setIndex a).mem = s.mem := rfl
@[simp] theorem State.setIndex_v (s : State) (a : Addr) : (s.setIndex a).v = s.v := rfl
@[simp] theorem State.setIndex_i (s : State) (a : Addr) : (s.setIndex a).i = a := rfl
@[simp] theorem State.setIndex_pc (s : State) (a : Addr) : (s.setIndex a).pc = s.pc := rfl
@[simp] theorem State.setIndex_stack (s : State) (a : Addr) : (s.setIndex a).stack = s.stack := rfl
@[simp] theorem State.setIndex_sp (s : State) (a : Addr) : (s.setIndex a).sp = s.sp := rfl
@[simp] theorem State.setIndex_dt (s : State) (a : Addr) : (s.setIndex a).dt = s.dt := rfl
@[simp] theorem State.setIndex_st (s : State) (a : Addr) : (s.setIndex a).st = s.st := rfl
@[simp] theorem State.setIndex_fb (s : State) (a : Addr) : (s.setIndex a).fb = s.fb := rfl
@[simp] theorem State.setIndex_dirty (s : State) (a : Addr) : (s.setIndex a).dirty = s.dirty := rfl
@[simp] theorem State.setIndex_keys (s : State) (a : Addr) : (s.setIndex a).keys = s.keys := rfl
@[simp] theorem State.setIndex_halted (s : State) (a : Addr) : (s.setIndex a).halted = s.halted := rfl
@[simp] theorem State.setIndex_draws (s : State) (a : Addr) : (s.setIndex a).draws = s.draws := rfl

/-! ### `raise` -/

@[simp] theorem State.raise_cfg (s : State) (e : StepError) (op : Option Opcode) : (s.raise e op).cfg = s.cfg := rfl
@[simp] theorem State.raise_mem (s : State) (e : StepError) (op : Option Opcode) : (s.raise e op).mem = s.mem := rfl
@[simp] theorem State.raise_v (s : State) (e : StepError) (op : Option Opcode) : (s.raise e op).v = s.v := rfl
@[simp] theorem State.raise_i (s : State) (e : StepError) (op : Option Opcode) : (s.raise e op).i = s.i := rfl
@[simp] theorem State.raise_pc (s : State) (e : StepError) (op : Option Opcode) : (s.raise e op).pc = s.pc := rfl
@[simp] theorem State.raise_stack (s : State) (e : StepError) (op : Option Opcode) : (s.raise e op).stack = s.stack := rfl
@[simp] theorem State.raise_sp (s : State) (e : StepError) (op : Option Opcode) : (s.raise e op).sp = s.sp := rfl
@[simp] theorem State.raise_dt (s : State) (e : StepError) (op : Option Opcode) : (s.raise e op).dt = s.dt := rfl
@[simp] theorem State.raise_st (s : State) (e : StepError) (op : Option Opcode) : (s.raise e op).st = s.st := rfl
@[simp] theorem State.raise_fb (s : State) (e : StepError) (op : Option Opcode) : (s.raise e op).fb = s.fb := rfl
@[simp] theorem State.raise_dirty (s : State) (e : StepError) (op : Option Opcode) : (s.raise e op).dirty = s.dirty := rfl
@[simp] theorem State.raise_keys (s : State) (e : StepError) (op : Option Opcode) : (s.raise e op).keys = s.keys := rfl
@[simp] theorem State.raise_halted (s : State) (e : StepError) (op : Option Opcode) : (s.raise e op).halted = some { error := e, op := op, pc := s.pc } := rfl
@[simp] theorem State.raise_draws (s : State) (e : StepError) (op : Option Opcode) : (s.raise e op).draws = s.draws := rfl

/-! ### `poke` -/

@[simp] theorem State.poke_cfg (s : State) (a : Nat) (b : Byte) : (s.poke a b).cfg = s.cfg := rfl
@[simp] theorem State.poke_mem (s : State) (a : Nat) (b : Byte) : (s.poke a b).mem = Memory.write s.cfg.font s.mem a b := rfl
@[simp] theorem State.poke_v (s : State) (a : Nat) (b : Byte) : (s.poke a b).v = s.v := rfl
@[simp] theorem State.poke_i (s : State) (a : Nat) (b : Byte) : (s.poke a b).i = s.i := rfl
@[simp] theorem State.poke_pc (s : State) (a : Nat) (b : Byte) : (s.poke a b).pc = s.pc := rfl
@[simp] theorem State.poke_stack (s : State) (a : Nat) (b : Byte) : (s.poke a b).stack = s.stack := rfl
@[simp] theorem State.poke_sp (s : State) (a : Nat) (b : Byte) : (s.poke a b).sp = s.sp := rfl
@[simp] theorem State.poke_dt (s : State) (a : Nat) (b : Byte) : (s.poke a b).dt = s.dt := rfl
@[simp] theorem State.poke_st (s : State) (a : Nat) (b : Byte) : (s.poke a b).st = s.st := rfl
@[simp] theorem State.poke_fb (s : State) (a : Nat) (b : Byte) : (s.poke a b).fb = s.fb := rfl
@[simp] theorem State.poke_dirty (s : State) (a : Nat) (b : Byte) : (s.poke a b).dirty = s.dirty := rfl
@[simp] theorem State.poke_keys (s : State) (a : Nat) (b : Byte) : (s.poke a b).keys = s.keys := rfl
@[simp] theorem State.poke_halted (s : State) (a : Nat) (b : Byte) : (s.poke a b).halted = s.halted := rfl
@[simp] theorem State.poke_draws (s : State) (a : Nat) (b : Byte) : (s.poke a b).draws = s.draws := rfl

/-! ### `drawn` -/

@[simp] theorem State.drawn_cfg (s : State) : (s.drawn).cfg = s.cfg := rfl
@[simp] theorem State.drawn_mem (s : State) : (s.drawn).mem = s.mem := rfl
@[simp] theorem State.drawn_v (s : State) : (s.drawn).v = s.v := rfl
@[simp] theorem State.drawn_i (s : State) : (s.drawn).i = s.i := rfl
@[simp] theorem State.drawn_pc (s : State) : (s.drawn).pc = s.pc := rfl
@[simp] theorem State.drawn_stack (s : State) : (s.drawn).stack = s.stack := rfl
@[simp] theorem State.drawn_sp (s : State) : (s.drawn).sp = s.sp := rfl
@[simp] theorem State.drawn_dt (s : State) : (s.drawn).dt = s.dt := rfl
@[simp] theorem State.drawn_st (s : State) : (s.drawn).st = s.st := rfl
@[simp] theorem State.drawn_fb (s : State) : (s.drawn).fb = s.fb := rfl
@[simp] theorem State.drawn_dirty (s : State) : (s.drawn).dirty = s.dirty := rfl
@[simp] theorem State.drawn_keys (s : State) : (s.drawn).keys = s.keys := rfl
@[simp] theorem State.drawn_halted (s : State) : (s.drawn).halted = s.halted := rfl
@[simp] theorem State.drawn_draws (s : State) : (s.drawn).draws = s.draws + 1 := rfl

/-! ### `tick` -/

@[simp] theorem State.tick_cfg (s : State) : (s.tick).cfg = s.cfg := rfl
@[simp] theorem State.tick_mem (s : State) : (s.tick).mem = s.mem := rfl
@[simp] theorem State.tick_v (s : State) : (s.tick).v = s.v := rfl
@[simp] theorem State.tick_i (s : State) : (s.tick).i = s.i := rfl
@[simp] theorem State.tick_pc (s : State) : (s.tick).pc = s.pc := rfl
@[simp] theorem State.tick_stack (s : State) : (s.tick).stack = s.stack := rfl
@[simp] theorem State.tick_sp (s : State) : (s.tick).sp = s.sp := rfl
@[simp] theorem State.tick_dt (s : State) : (s.tick).dt = tickTimer s.dt := rfl
@[simp] theorem State.tick_st (s : State) : (s.tick).st = tickTimer s.st := rfl
@[simp] theorem State.tick_fb (s : State) : (s.tick).fb = s.fb := rfl
@[simp] theorem State.tick_dirty (s : State) : (s.tick).dirty = s.dirty := rfl
@[simp] theorem State.tick_keys (s : State) : (s.tick).keys = s.keys := rfl
@[simp] theorem State.tick_halted (s : State) : (s.tick).halted = s.halted := rfl
@[simp] theorem State.tick_draws (s : State) : (s.tick).draws = s.draws := rfl

/-! ### `setKey` -/

@[simp] theorem State.setKey_cfg (s : State) (k : KeyIdx) (b : Bool) : (s.setKey k b).cfg = s.cfg := rfl
@[simp] theorem State.setKey_mem (s : State) (k : KeyIdx) (b : Bool) : (s.setKey k b).mem = s.mem := rfl
@[simp] theorem State.setKey_v (s : State) (k : KeyIdx) (b : Bool) : (s.setKey k b).v = s.v := rfl
@[simp] theorem State.setKey_i (s : State) (k : KeyIdx) (b : Bool) : (s.setKey k b).i = s.i := rfl
@[simp] theorem State.setKey_pc (s : State) (k : KeyIdx) (b : Bool) : (s.setKey k b).pc = s.pc := rfl
@[simp] theorem State.setKey_stack (s : State) (k : KeyIdx) (b : Bool) : (s.setKey k b).stack = s.stack := rfl
@[simp] theorem State.setKey_sp (s : State) (k : KeyIdx) (b : Bool) : (s.setKey k b).sp = s.sp := rfl
@[simp] theorem State.setKey_dt (s : State) (k : KeyIdx) (b : Bool) : (s.setKey k b).dt = s.dt := rfl
@[simp] theorem State.setKey_st (s : State) (k : KeyIdx) (b : Bool) : (s.setKey k b).st = s.st := rfl
@[simp] theorem State.setKey_fb (s : State) (k : KeyIdx) (b : Bool) : (s.setKey k b).fb = s.fb := rfl
@[simp] theorem State.setKey_dirty (s : State) (k : KeyIdx) (b : Bool) : (s.setKey k b).dirty = s.dirty := rfl
@[simp] theorem State.setKey_keys (s : State) (k : KeyIdx) (b : Bool) : (s.setKey k b).keys = s.keys.set k.val b k.isLt := rfl
@[simp] theorem State.setKey_halted (s : State) (k : KeyIdx) (b : Bool) : (s.setKey k b).halted = s.halted := rfl
@[simp] theorem State.setKey_draws (s : State) (k : KeyIdx) (b : Bool) : (s.setKey k b).draws = s.draws := rfl

/-! ### `clearDirty` -/

@[simp] theorem State.clearDirty_cfg (s : State) : (s.clearDirty).cfg = s.cfg := rfl
@[simp] theorem State.clearDirty_mem (s : State) : (s.clearDirty).mem = s.mem := rfl
@[simp] theorem State.clearDirty_v (s : State) : (s.clearDirty).v = s.v := rfl
@[simp] theorem State.clearDirty_i (s : State) : (s.clearDirty).i = s.i := rfl
@[simp] theorem State.clearDirty_pc (s : State) : (s.clearDirty).pc = s.pc := rfl
@[simp] theorem State.clearDirty_stack (s : State) : (s.clearDirty).stack = s.stack := rfl
@[simp] theorem State.clearDirty_sp (s : State) : (s.clearDirty).sp = s.sp := rfl
@[simp] theorem State.clearDirty_dt (s : State) : (s.clearDirty).dt = s.dt := rfl
@[simp] theorem State.clearDirty_st (s : State) : (s.clearDirty).st = s.st := rfl
@[simp] theorem State.clearDirty_fb (s : State) : (s.clearDirty).fb = s.fb := rfl
@[simp] theorem State.clearDirty_dirty (s : State) : (s.clearDirty).dirty = false := rfl
@[simp] theorem State.clearDirty_keys (s : State) : (s.clearDirty).keys = s.keys := rfl
@[simp] theorem State.clearDirty_halted (s : State) : (s.clearDirty).halted = s.halted := rfl
@[simp] theorem State.clearDirty_draws (s : State) : (s.clearDirty).draws = s.draws := rfl

/-! ### Registers -/

@[simp] theorem State.reg_setReg_same (s : State) (k : RegIdx) (b : Byte) : (s.setReg k b).reg k = b := by
  simp [State.reg]

theorem State.reg_setReg (s : State) (k l : RegIdx) (b : Byte) :
    (s.setReg k b).reg l = if k = l then b else s.reg l := by
  simp [State.reg, Vector.getElem_set, Fin.ext_iff]

theorem State.reg_setReg_ne (s : State) {k l : RegIdx} (b : Byte) (h : l ≠ k) : (s.setReg k b).reg l = s.reg l := by
  rw [State.reg_setReg, if_neg (Ne.symm h)]

/-- A register read depends on the register file only. -/
theorem State.reg_congr {s t : State} (h : t.v = s.v) (k : RegIdx) : t.reg k = s.reg k := by
  simp [State.reg, h]

@[simp] theorem State.reg_advance (s : State) (a : Addr) (k : RegIdx) : (s.advance a).reg k = s.reg k := rfl
@[simp] theorem State.reg_skipIf (s : State) (c : Bool) (k : RegIdx) : (s.skipIf c).reg k = s.reg k := rfl
@[simp] theorem State.reg_jump (s : State) (a : Addr) (k : RegIdx) : (s.jump a).reg k = s.reg k := rfl
@[simp] theorem State.reg_setIndex (s : State) (a : Addr) (k : RegIdx) : (s.setIndex a).reg k = s.reg k := rfl
@[simp] theorem State.reg_raise (s : State) (e : StepError) (op : Option Opcode) (k : RegIdx) :
    (s.raise e op).reg k = s.reg k := rfl
@[simp] theorem State.reg_drawn (s : State) (k : RegIdx) : s.drawn.reg k = s.reg k := rfl
@[simp] theorem State.reg_tick (s : State) (k : RegIdx) : s.tick.reg k = s.reg k := rfl

/-! ### Bytes, keys and pixels -/

/-- A byte read depends on the memory list and the font only. -/
theorem State.byteAt_congr {s t : State} (hm : t.mem = s.mem) (hc : t.cfg = s.cfg) (a : Nat) :
    t.byteAt a = s.byteAt a := by
  simp [State.byteAt, hm, hc]

theorem State.key_setKey (s : State) (k l : KeyIdx) (b : Bool) :
    (s.setKey k b).key l = if k = l then b else s.key l := by
  simp [State.key, Vector.getElem_set, Fin.ext_iff]

theorem Display.pixel_setPixel (fb : Display) (r r' : Fin 32) (c c' : Fin 64) (b : Bool) :
    Display.pixel (Display.setPixel fb r c b) r' c' = if r = r' ∧ c = c' then b else Display.pixel fb r' c' := by
  by_cases hr : r = r'
  · subst hr
    simp [Display.pixel, Display.setPixel, Vector.getElem_set, Fin.ext_iff]
  · have : r.val ≠ r'.val := fun h => hr (Fin.ext h)
    simp [Display.pixel, Display.setPixel, hr, this]

@[simp] theorem Display.pixel_blank (r : Fin 32) (c : Fin 64) : Display.pixel blankDisplay r c = false := by
  simp [Display.pixel, blankDisplay]

end Sys2Proof.Machine
end

