-- ==== Sys2Proof/Laws/Draw.lean ====
section
/-! SUPPORT. What drawing a sprite does to each pixel and to the collision bit (R280, R282): the loops of Ops.lean as a
statement about one pixel. -/

namespace Sys2Proof.Machine

theorem xorPixel_pixel (d : Drawing) (r r' : Fin 32) (c c' : Fin 64) (bit : Bool) :
    Display.pixel (xorPixel d r c bit).1 r' c' =
      if r = r' ∧ c = c' then (Display.pixel d.1 r' c' ^^ bit) else Display.pixel d.1 r' c' := by
  unfold xorPixel
  cases bit
  · simp
  · simp only [if_true, Display.pixel_setPixel]
    split
    · rename_i h
      obtain ⟨rfl, rfl⟩ := h
      simp
    · rfl

theorem xorPixel_collided (d : Drawing) (r : Fin 32) (c : Fin 64) (bit : Bool) :
    (xorPixel d r c bit).2 = (d.2 || (bit && Display.pixel d.1 r c)) := by
  unfold xorPixel
  cases bit <;> simp

/-- The display column of sprite column `7 - j`, whose bit is bit `j`. -/
abbrev bitColumn (cx j : Nat) : Fin 64 := Fin.ofNat 64 (cx + (7 - j))

theorem bitColumn_injective {cx j k : Nat} (hj : j < 8) (hk : k < 8) (h : bitColumn cx j = bitColumn cx k) : j = k := by
  simp only [bitColumn, Fin.ofNat_eq_cast, Fin.ext_iff, Fin.val_natCast] at h
  omega

/-- One sprite row: each of its bits is XORed into the pixel it lands on, and no other pixel changes. -/
theorem drawColumns_pixel (cx : Nat) (r : Fin 32) (row : Byte) (left : Nat) (hl : left ≤ 8) (d : Drawing) :
    (∀ j, j < left → Display.pixel (drawColumns cx r row left d).1 r (bitColumn cx j) =
      (Display.pixel d.1 r (bitColumn cx j) ^^ row.getLsbD j)) ∧
    (∀ r' c', (r' ≠ r ∨ ∀ j, j < left → c' ≠ bitColumn cx j) →
      Display.pixel (drawColumns cx r row left d).1 r' c' = Display.pixel d.1 r' c') := by
  induction left generalizing d with
  | zero => exact ⟨fun j hj => by omega, fun r' c' _ => rfl⟩
  | succ left ih =>
    obtain ⟨ih1, ih2⟩ := ih (by omega) (xorPixel d r (bitColumn cx left) (row.getLsbD left))
    simp only [drawColumns]
    refine ⟨fun j hj => ?_, fun r' c' h => ?_⟩
    · by_cases hjl : j = left
      · subst hjl
        rw [ih2 _ _ (.inr fun k hk h => by have := bitColumn_injective (by omega) (by omega) h; omega), xorPixel_pixel]
        simp
      · rw [ih1 j (by omega), xorPixel_pixel, if_neg]
        rintro ⟨-, h⟩
        exact hjl (bitColumn_injective (by omega) (by omega) h).symm
    · rw [ih2 r' c' (h.imp_right fun h j hj => h j (by omega)), xorPixel_pixel, if_neg]
      rintro ⟨h1, h2⟩
      rcases h with h | h
      · exact h h1.symm
      · exact h left (by omega) h2.symm

/-- One sprite row: the collision bit is set when a 1 bit lands on an on pixel. -/
theorem drawColumns_collided (cx : Nat) (r : Fin 32) (row : Byte) (left : Nat) (hl : left ≤ 8) (d : Drawing) :
    (drawColumns cx r row left d).2 = true ↔
      d.2 = true ∨ ∃ j, j < left ∧ row.getLsbD j = true ∧ Display.pixel d.1 r (bitColumn cx j) = true := by
  induction left generalizing d with
  | zero => simp [drawColumns]
  | succ left ih =>
    simp only [drawColumns]
    rw [ih (by omega), xorPixel_collided]
    have hp : ∀ j, j < left → Display.pixel (xorPixel d r (bitColumn cx left) (row.getLsbD left)).1 r (bitColumn cx j) =
        Display.pixel d.1 r (bitColumn cx j) := fun j hj => by
      rw [xorPixel_pixel, if_neg]
      rintro ⟨-, h⟩
      have := bitColumn_injective (by omega) (by omega) h
      omega
    simp only [Bool.or_eq_true, Bool.and_eq_true]
    constructor
    · rintro ((h | h) | ⟨j, hj, hb, h⟩)
      · exact .inl h
      · exact .inr ⟨left, by omega, h⟩
      · exact .inr ⟨j, by omega, hb, by rwa [hp j hj] at h⟩
    · rintro (h | ⟨j, hj, hb, h⟩)
      · exact .inl (.inl h)
      · by_cases hjl : j = left
        · subst hjl
          exact .inl (.inr ⟨hb, h⟩)
        · exact .inr ⟨j, by omega, hb, by rwa [hp j (by omega)]⟩

/-- The whole sprite, pixel by pixel: sprite row `k` and bit `j` land on display row `(cy + k) mod 32` and on the column of
bit `j`; each landing pixel is XORed with its bit, and every other pixel is kept. -/
theorem drawRows_pixel (cx : Nat) (rows : List Byte) (cy : Nat) (hr : rows.length ≤ 32) (d : Drawing) :
    (∀ k (hk : k < rows.length) j, j < 8 →
      Display.pixel (drawRows cx cy rows d).1 (Fin.ofNat 32 (cy + k)) (bitColumn cx j) =
        (Display.pixel d.1 (Fin.ofNat 32 (cy + k)) (bitColumn cx j) ^^ (rows[k]).getLsbD j)) ∧
    (∀ r' c', (∀ k j, k < rows.length → j < 8 → ¬ (r' = Fin.ofNat 32 (cy + k) ∧ c' = bitColumn cx j)) →
      Display.pixel (drawRows cx cy rows d).1 r' c' = Display.pixel d.1 r' c') := by
  induction rows generalizing cy d with
  | nil => exact ⟨fun k hk => by simp at hk, fun _ _ _ => rfl⟩
  | cons row rows ih =>
    simp only [List.length_cons] at hr
    obtain ⟨ih1, ih2⟩ := ih (cy + 1) (by omega) (drawColumns cx (Fin.ofNat 32 cy) row 8 d)
    obtain ⟨c1, c2⟩ := drawColumns_pixel cx (Fin.ofNat 32 cy) row 8 (by omega) d
    simp only [drawRows]
    refine ⟨fun k hk j hj => ?_, fun r' c' h => ?_⟩
    · cases k with
      | zero =>
        simp only [Nat.add_zero, List.getElem_cons_zero]
        rw [ih2 _ _ (fun k j' hk' _ h => ?_), c1 j hj]
        simp only [Fin.ofNat_eq_cast, Fin.ext_iff, Fin.val_natCast] at h
        omega
      | succ k =>
        simp only [List.length_cons] at hk
        have := ih1 k (by omega) j hj
        rw [show cy + 1 + k = cy + (k + 1) by omega] at this
        simp only [List.getElem_cons_succ]
        rw [this, c2 _ _ (.inl ?_)]
        simp only [Fin.ofNat_eq_cast, ne_eq, Fin.ext_iff, Fin.val_natCast]
        omega
    · rw [ih2 r' c' (fun k j hk hj h' => ?_), c2 r' c' ?_]
      · by_cases hrow : r' = Fin.ofNat 32 cy
        · exact .inr fun j hj hc => h 0 j (by simp) hj ⟨hrow, hc⟩
        · exact .inl hrow
      · rw [show cy + 1 + k = cy + (k + 1) by omega] at h'
        exact h (k + 1) j (by simpa using hk) hj h'

/-- The whole sprite: the collision bit is set when a 1 bit lands on a pixel that was on before the draw. -/
theorem drawRows_collided (cx : Nat) (rows : List Byte) (cy : Nat) (hr : rows.length ≤ 32) (d : Drawing) :
    (drawRows cx cy rows d).2 = true ↔
      d.2 = true ∨ ∃ k j, ∃ hk : k < rows.length, j < 8 ∧ (rows[k]).getLsbD j = true ∧
        Display.pixel d.1 (Fin.ofNat 32 (cy + k)) (bitColumn cx j) = true := by
  induction rows generalizing cy d with
  | nil => simp [drawRows]
  | cons row rows ih =>
    simp only [List.length_cons] at hr
    simp only [drawRows]
    rw [ih (cy + 1) (by omega), drawColumns_collided cx _ row 8 (by omega)]
    have hkeep : ∀ k j, k < rows.length →
        Display.pixel (drawColumns cx (Fin.ofNat 32 cy) row 8 d).1 (Fin.ofNat 32 (cy + 1 + k)) (bitColumn cx j) =
          Display.pixel d.1 (Fin.ofNat 32 (cy + 1 + k)) (bitColumn cx j) := fun k j hk => by
      refine (drawColumns_pixel cx (Fin.ofNat 32 cy) row 8 (by omega) d).2 _ _ (.inl ?_)
      simp only [Fin.ofNat_eq_cast, ne_eq, Fin.ext_iff, Fin.val_natCast]
      omega
    constructor
    · rintro ((h | ⟨j, hj, hb, hp⟩) | ⟨k, j, hk, hj, hb, hp⟩)
      · exact .inl h
      · exact .inr ⟨0, j, by simp, hj, by simpa using hb, by simpa using hp⟩
      · rw [hkeep k j hk, show cy + 1 + k = cy + (k + 1) by omega] at hp
        exact .inr ⟨k + 1, j, by simpa using hk, hj, by simpa using hb, hp⟩
    · rintro (h | ⟨k, j, hk, hj, hb, hp⟩)
      · exact .inl (.inl h)
      · cases k with
        | zero => exact .inl (.inr ⟨j, hj, by simpa using hb, by simpa using hp⟩)
        | succ k =>
          simp only [List.length_cons] at hk
          refine .inr ⟨k, j, by omega, hj, by simpa using hb, ?_⟩
          rw [hkeep k j (by omega), show cy + 1 + k = cy + (k + 1) by omega]
          exact hp

end Sys2Proof.Machine
end

