-- ==== Sys2Proof/Laws/Ops.lean ====
section
/-! SUPPORT. One specification lemma (or one for each outcome) for each shared operation: memory transfers, the stack,
register ranges, the keypad, the timers and the flags. The provers cite these and do not unfold the operations. -/

namespace Sys2Proof.Machine

/-! ### Ending an instruction -/

@[simp] theorem attempt_ok (i : Instr) (s t : State) : attempt i s (.ok t) = .next t := rfl
@[simp] theorem attempt_error (i : Instr) (s : State) (e : StepError) :
    attempt i s (.error e) = .next (s.raise e (some (encode i))) := rfl

/-- An instruction that can fail still answers a next state: what it built, or the halted state. -/
theorem attempt_answers (i : Instr) (s : State) (r : Except StepError State) : ∃ t, attempt i s r = .next t := by
  cases r <;> exact ⟨_, rfl⟩

/-! ### Memory transfers -/

theorem memRead_ok {s : State} {a : Nat} (h : a < memorySize) : memRead s a = .ok (s.byteAt a) :=
  if_neg (Nat.not_le.2 h)

theorem memRead_error {s : State} {a : Nat} (h : memorySize ≤ a) : memRead s a = .error (.addressOutOfRange a) :=
  if_pos h

theorem storeError_none_iff (cfg : Config) (a : Nat) :
    storeError cfg a = none ↔ a < memorySize ∧ (programBase ≤ a ∨ cfg.reservedWrite = .allow) := by
  unfold storeError
  cases hc : cfg.reservedWrite <;> split <;> simp <;> omega

theorem storeError_some_iff (cfg : Config) (a : Nat) (e : StepError) :
    storeError cfg a = some e ↔
      (memorySize ≤ a ∧ e = .addressOutOfRange a) ∨
        (a < programBase ∧ cfg.reservedWrite = .fault ∧ e = .reservedWrite a) := by
  have hlt : programBase ≤ memorySize := by decide
  unfold storeError
  split
  · rename_i h
    simp [eq_comm, h]
    omega
  · rename_i h
    split
    · rename_i h'
      simp [h, h', eq_comm]
    · rename_i h'
      simp only [reduceCtorEq, false_iff]
      rintro (⟨h1, -⟩ | ⟨h1, h2, -⟩)
      · exact h h1
      · exact h' ⟨h1, h2⟩

/-- A transfer whose every address may be written lands whole. -/
theorem writeBytes_ok (bytes : List Byte) (s : State) (a : Nat)
    (h : ∀ k, k < bytes.length → storeError s.cfg (a + k) = none) :
    writeBytes s a bytes = .ok { s with mem := Memory.writeAll s.cfg.font s.mem a bytes } := by
  induction bytes generalizing s a with
  | nil => rfl
  | cons b bytes ih =>
    have h0 := h 0 (by simp)
    simp only [Nat.add_zero] at h0
    simp only [writeBytes, memWrite, h0]
    rw [ih (s.poke a b) (a + 1) (fun k hk => ?_)]
    · rfl
    · have := h (k + 1) (by simpa using hk)
      rwa [show a + (k + 1) = a + 1 + k by omega] at this

/-- The lowest address that may not be written decides the error (R69, R340). -/
theorem writeBytes_error (bytes : List Byte) (s : State) (a k : Nat) (e : StepError) (hk : k < bytes.length)
    (hbefore : ∀ j, j < k → storeError s.cfg (a + j) = none) (he : storeError s.cfg (a + k) = some e) :
    writeBytes s a bytes = .error e := by
  induction bytes generalizing s a k with
  | nil => simp at hk
  | cons b bytes ih =>
    cases k with
    | zero =>
      simp only [Nat.add_zero] at he
      simp [writeBytes, memWrite, he]
    | succ k =>
      have h0 := hbefore 0 (by omega)
      simp only [Nat.add_zero] at h0
      simp only [writeBytes, memWrite, h0]
      refine ih (s.poke a b) (a + 1) k (by simpa using hk) (fun j hj => ?_) ?_
      · have := hbefore (j + 1) (by omega)
        rwa [show a + (j + 1) = a + 1 + j by omega] at this
      · rwa [show a + (k + 1) = a + 1 + k by omega] at he

/-- A write transfer lands whole or fails at its lowest bad address. -/
theorem writeBytes_cases (bytes : List Byte) (s : State) (a : Nat) :
    ((∀ k, k < bytes.length → storeError s.cfg (a + k) = none) ∧
      writeBytes s a bytes = .ok { s with mem := Memory.writeAll s.cfg.font s.mem a bytes }) ∨
    ∃ k e, k < bytes.length ∧ (∀ j, j < k → storeError s.cfg (a + j) = none) ∧
      storeError s.cfg (a + k) = some e ∧ writeBytes s a bytes = .error e := by
  by_cases h : ∀ k, k < bytes.length → storeError s.cfg (a + k) = none
  · exact .inl ⟨h, writeBytes_ok bytes s a h⟩
  · right
    have hex : ∃ k, k < bytes.length ∧ storeError s.cfg (a + k) ≠ none := by
      simpa only [not_forall, exists_prop] using h
    obtain ⟨hk, hne⟩ := Nat.find_spec hex
    obtain ⟨e, he⟩ := Option.ne_none_iff_exists'.1 hne
    have hbefore : ∀ j, j < Nat.find hex → storeError s.cfg (a + j) = none := fun j hj => by
      have := Nat.find_min hex hj
      by_contra hcon
      exact this ⟨by omega, hcon⟩
    exact ⟨Nat.find hex, e, hk, hbefore, he, writeBytes_error bytes s a _ e hk hbefore he⟩

/-- A read transfer inside memory gives the bytes in address order. -/
theorem readBytes_ok (s : State) (n a : Nat) (h : a + n ≤ memorySize) :
    readBytes s a n = .ok ((List.range n).map fun k => s.byteAt (a + k)) := by
  induction n generalizing a with
  | zero => rfl
  | succ n ih =>
    simp only [readBytes, memRead_ok (s := s) (a := a) (by omega), ih (a + 1) (by omega),
      List.range_succ_eq_map, List.map_cons, List.map_map, Nat.add_zero]
    congr 2
    apply List.map_congr_left
    intro k _
    simp only [Function.comp, Nat.succ_eq_add_one]
    rw [show a + 1 + k = a + (k + 1) by omega]

/-- A read transfer that leaves memory fails at its lowest bad address. -/
theorem readBytes_error (s : State) (n a k : Nat) (hk : k < n) (hbefore : ∀ j, j < k → a + j < memorySize)
    (h : memorySize ≤ a + k) : readBytes s a n = .error (.addressOutOfRange (a + k)) := by
  induction n generalizing a k with
  | zero => omega
  | succ n ih =>
    cases k with
    | zero => simp [readBytes, memRead_error (s := s) (a := a) h]
    | succ k =>
      have h0 := hbefore 0 (by omega)
      simp only [Nat.add_zero] at h0
      simp only [readBytes, memRead_ok (s := s) h0]
      rw [ih (a + 1) k (by omega) (fun j hj => by have := hbefore (j + 1) (by omega); omega) (by omega)]
      simp only
      rw [show a + 1 + k = a + (k + 1) by omega]

/-- A read transfer succeeds inside memory or fails at its lowest bad address. -/
theorem readBytes_cases (s : State) (n a : Nat) :
    (a + n ≤ memorySize ∧ readBytes s a n = .ok ((List.range n).map fun k => s.byteAt (a + k))) ∨
    (n = 0 ∧ readBytes s a n = .ok []) ∨
    ∃ k, k < n ∧ (∀ j, j < k → a + j < memorySize) ∧ memorySize ≤ a + k ∧
      readBytes s a n = .error (.addressOutOfRange (a + k)) := by
  by_cases h : a + n ≤ memorySize
  · exact .inl ⟨h, readBytes_ok s n a h⟩
  · cases n with
    | zero => exact .inr (.inl ⟨rfl, rfl⟩)
    | succ n =>
      refine .inr (.inr ⟨memorySize - a, by omega, fun j hj => by omega, by omega, ?_⟩)
      exact readBytes_error s (n + 1) a _ (by omega) (fun j hj => by omega) (by omega)

/-! ### Register ranges -/

@[simp] theorem State.length_regsUpTo (s : State) (x : RegIdx) : (s.regsUpTo x).length = x.val + 1 := by
  have := x.isLt
  simp [State.regsUpTo]

theorem State.getElem_regsUpTo (s : State) (x : RegIdx) (k : Nat) (h : k < (s.regsUpTo x).length) :
    (s.regsUpTo x)[k] = s.v[k]'(by have := x.isLt; simp at h; omega) := by
  simp [State.regsUpTo]

/-- Filling registers upward from `k`: register `l` gets the byte that falls on it, and the others keep theirs. -/
theorem getElem_loadRegs (bytes : List Byte) (k : Nat) (v : Vector Byte 16) (l : Nat) (hl : l < 16) :
    (loadRegs k bytes v)[l] = if h : k ≤ l ∧ l < k + bytes.length then bytes[l - k]'(by omega) else v[l] := by
  induction bytes generalizing k v with
  | nil =>
    rw [dif_neg (by simp only [List.length_nil]; omega)]
    rfl
  | cons b bytes ih =>
    simp only [loadRegs, ih, List.length_cons, Vector.getElem_setIfInBounds]
    by_cases h1 : k + 1 ≤ l ∧ l < k + 1 + bytes.length
    · rw [dif_pos h1, dif_pos (by omega)]
      have : l - k = (l - (k + 1)) + 1 := by omega
      simp [this]
    · rw [dif_neg h1]
      by_cases h2 : k = l
      · subst h2
        simp
      · rw [if_neg h2, dif_neg (by omega)]

/-! ### The call stack -/

theorem push_ok {s : State} (a : Addr) (h : s.sp.val < 16) :
    push s a = .ok { s with stack := s.stack.set s.sp.val a h, sp := ⟨s.sp.val + 1, Nat.succ_lt_succ h⟩ } :=
  dif_pos h

theorem push_error {s : State} (a : Addr) (h : ¬ s.sp.val < 16) : push s a = .error .stackOverflow :=
  dif_neg h

theorem pop_error {s : State} (h : s.sp.val = 0) : pop s = .error .stackUnderflow := by
  unfold pop
  split
  · rfl
  · omega

theorem pop_ok {s : State} (k : Nat) (hk : k < 16) (h : s.sp.val = k + 1) :
    pop s = .ok (s.stack[k], { s with sp := ⟨k, Nat.lt_succ_of_lt hk⟩ }) := by
  unfold pop
  split
  · omega
  · rename_i m hm
    obtain rfl : m = k := by omega
    rfl

/-! ### The keypad -/

theorem State.mem_pressedKeys (s : State) (k : KeyIdx) : k ∈ s.pressedKeys ↔ s.key k = true := by
  simp [State.pressedKeys]

theorem chooseKey_none_iff (choice : Nat) (ks : List KeyIdx) : chooseKey choice ks = none ↔ ks = [] := by
  unfold chooseKey
  split
  · simp
  · simp
  · rename_i k l rest
    simp only [reduceCtorEq, iff_false, List.getElem?_eq_none_iff, Nat.not_le]
    exact Nat.mod_lt _ (by simp)

theorem chooseKey_mem {choice : Nat} {ks : List KeyIdx} {k : KeyIdx} (h : chooseKey choice ks = some k) : k ∈ ks := by
  unfold chooseKey at h
  split at h
  · simp at h
  · simp only [Option.some.injEq] at h
    simp [h]
  · exact List.mem_of_getElem? h

/-- Every listed key is the choice of some draw. -/
theorem chooseKey_surjective {ks : List KeyIdx} {k : KeyIdx} (h : k ∈ ks) : ∃ choice, chooseKey choice ks = some k := by
  obtain ⟨j, hj, rfl⟩ := List.getElem_of_mem h
  refine ⟨j, ?_⟩
  unfold chooseKey
  split
  · simp at hj
  · simp only [List.length_singleton] at hj
    obtain rfl : j = 0 := by omega
    rfl
  · rw [Nat.mod_eq_of_lt hj]
    exact List.getElem?_eq_getElem hj

/-- With no key pressed FX0A changes nothing; otherwise it loads a pressed key and takes one draw. -/
theorem keyWait_cases (s : State) (choice : Nat) :
    (s.pressedKeys = [] ∧ chooseKey choice s.pressedKeys = none) ∨
      ∃ k, s.key k = true ∧ chooseKey choice s.pressedKeys = some k := by
  cases h : chooseKey choice s.pressedKeys with
  | none => exact .inl ⟨(chooseKey_none_iff _ _).1 h, rfl⟩
  | some k => exact .inr ⟨k, (s.mem_pressedKeys k).1 (chooseKey_mem h), rfl⟩

theorem lowNibble_val (a : Byte) : (lowNibble a).val = a.toNat % 16 := by
  have h : (a &&& 0x0F).toNat = a.toNat % 16 := by
    rw [BitVec.toNat_and]
    exact Nat.and_two_pow_sub_one_eq_mod a.toNat 4
  simp only [lowNibble, h, Nat.mod_mod]

theorem keyIndex_ok {policy : KeyIndexPolicy} {a : Byte} (h : a.toNat < 16) : keyIndex policy a = .ok ⟨a.toNat, h⟩ :=
  dif_pos h

theorem keyIndex_fault {a : Byte} (h : ¬ a.toNat < 16) : keyIndex .fault a = .error (.keyIndexOutOfRange a) :=
  dif_neg h

theorem keyIndex_lowNibble {a : Byte} (h : ¬ a.toNat < 16) : keyIndex .lowNibble a = .ok (lowNibble a) :=
  dif_neg h

/-! ### Timers and flags -/

theorem tickTimer_toNat (t : Byte) : (tickTimer t).toNat = t.toNat - 1 := by
  unfold tickTimer
  split
  · subst_vars; rfl
  · rename_i h
    have : t.toNat ≠ 0 := fun h0 => h (BitVec.eq_of_toNat_eq (by simpa using h0))
    bv_omega

theorem State.toneExpires_iff (s : State) : s.toneExpires = decide (s.st = 1) := by
  unfold State.toneExpires tickTimer
  rw [Bool.eq_iff_iff]
  simp only [bne_iff_ne, ne_eq, Bool.and_eq_true, beq_iff_eq, decide_eq_true_eq]
  constructor
  · rintro ⟨h, h'⟩
    rw [if_neg h] at h'
    bv_omega
  · intro h
    rw [h]
    decide

@[simp] theorem flagOf_true : flagOf true = 1 := rfl
@[simp] theorem flagOf_false : flagOf false = 0 := rfl

theorem carryFlag_toNat (a b : Byte) : (carryFlag a b).toNat = if a.toNat + b.toNat > 255 then 1 else 0 := by
  unfold carryFlag flagOf
  by_cases h : 255 < a.toNat + b.toNat <;> simp [h]

theorem notBorrowFlag_toNat (a b : Byte) : (notBorrowFlag a b).toNat = if a.toNat < b.toNat then 0 else 1 := by
  unfold notBorrowFlag flagOf
  by_cases h : a.toNat < b.toNat <;> simp [h]

theorem shiftedOutLow_toNat (s : Byte) : (shiftedOutLow s).toNat = s.toNat % 2 := by
  simp only [shiftedOutLow, BitVec.toNat_and]
  exact Nat.and_one_is_mod s.toNat

theorem shiftedOutHigh_toNat (s : Byte) : (shiftedOutHigh s).toNat = s.toNat / 128 := by
  simp [shiftedOutHigh, Nat.shiftRight_eq_div_pow]

end Sys2Proof.Machine
end

