-- ==== Sys2Proof/Laws/PerInstr.lean ====
section
/-! SUPPORT. Per-instruction laws. The family `TableRow`: an instruction's opcode has the fixed bits that its row of
spec/opcode_table.json gives it (`mask` and `match`), read as numbers from the table. -/

namespace Sys2Proof.Laws.TableRow

/-- An opcode has a row's fixed bits: under the row's mask it is the row's match. -/
def HasRow (mask pattern : Opcode) (op : Opcode) : Prop := op &&& mask = pattern

/-- The row of the opcode table that an instruction's opcode has the fixed bits of. -/
def Statement : Instr → Prop
  | .cls => HasRow 0xFFFF 0x00E0 (encode (.cls))
  | .ret => HasRow 0xFFFF 0x00EE (encode (.ret))
  | .jp nnn => HasRow 0xF000 0x1000 (encode (.jp nnn))
  | .call nnn => HasRow 0xF000 0x2000 (encode (.call nnn))
  | .seImm x nn => HasRow 0xF000 0x3000 (encode (.seImm x nn))
  | .sneImm x nn => HasRow 0xF000 0x4000 (encode (.sneImm x nn))
  | .seReg x y => HasRow 0xF00F 0x5000 (encode (.seReg x y))
  | .ldImm x nn => HasRow 0xF000 0x6000 (encode (.ldImm x nn))
  | .addImm x nn => HasRow 0xF000 0x7000 (encode (.addImm x nn))
  | .ldReg x y => HasRow 0xF00F 0x8000 (encode (.ldReg x y))
  | .orReg x y => HasRow 0xF00F 0x8001 (encode (.orReg x y))
  | .andReg x y => HasRow 0xF00F 0x8002 (encode (.andReg x y))
  | .xorReg x y => HasRow 0xF00F 0x8003 (encode (.xorReg x y))
  | .addReg x y => HasRow 0xF00F 0x8004 (encode (.addReg x y))
  | .sub x y => HasRow 0xF00F 0x8005 (encode (.sub x y))
  | .shr x y => HasRow 0xF00F 0x8006 (encode (.shr x y))
  | .subn x y => HasRow 0xF00F 0x8007 (encode (.subn x y))
  | .shl x y => HasRow 0xF00F 0x800E (encode (.shl x y))
  | .sneReg x y => HasRow 0xF00F 0x9000 (encode (.sneReg x y))
  | .ldI nnn => HasRow 0xF000 0xA000 (encode (.ldI nnn))
  | .jpV0 nnn => HasRow 0xF000 0xB000 (encode (.jpV0 nnn))
  | .rnd x nn => HasRow 0xF000 0xC000 (encode (.rnd x nn))
  | .drw x y n => HasRow 0xF000 0xD000 (encode (.drw x y n))
  | .skp x => HasRow 0xF0FF 0xE09E (encode (.skp x))
  | .sknp x => HasRow 0xF0FF 0xE0A1 (encode (.sknp x))
  | .ldVxDt x => HasRow 0xF0FF 0xF007 (encode (.ldVxDt x))
  | .ldVxK x => HasRow 0xF0FF 0xF00A (encode (.ldVxK x))
  | .ldDtVx x => HasRow 0xF0FF 0xF015 (encode (.ldDtVx x))
  | .ldStVx x => HasRow 0xF0FF 0xF018 (encode (.ldStVx x))
  | .addIVx x => HasRow 0xF0FF 0xF01E (encode (.addIVx x))
  | .ldFVx x => HasRow 0xF0FF 0xF029 (encode (.ldFVx x))
  | .ldBVx x => HasRow 0xF0FF 0xF033 (encode (.ldBVx x))
  | .ldMemVx x => HasRow 0xF0FF 0xF055 (encode (.ldMemVx x))
  | .ldVxMem x => HasRow 0xF0FF 0xF065 (encode (.ldVxMem x))

/-! ### Bitwise AND of a layout, field by field -/

theorem layoutXYN_and (t x y n t' x' y' n' : BitVec 4) :
    layoutXYN t x y n &&& layoutXYN t' x' y' n' = layoutXYN (t &&& t') (x &&& x') (y &&& y') (n &&& n') :=
  BitVec.and_append.trans (congrArg (· ++ _) (BitVec.and_append.trans (congrArg (· ++ _) BitVec.and_append)))

theorem layoutXNN_and (t x t' x' : BitVec 4) (nn nn' : BitVec 8) :
    layoutXNN t x nn &&& layoutXNN t' x' nn' = layoutXNN (t &&& t') (x &&& x') (nn &&& nn') :=
  BitVec.and_append.trans (congrArg (· ++ _) BitVec.and_append)

theorem layoutNNN_and (t t' : BitVec 4) (nnn nnn' : BitVec 12) :
    layoutNNN t nnn &&& layoutNNN t' nnn' = layoutNNN (t &&& t') (nnn &&& nnn') :=
  BitVec.and_append

theorem and_nibble (t : BitVec 4) : t &&& 15#4 = t := BitVec.and_allOnes
theorem and_byte (t : BitVec 8) : t &&& 255#8 = t := BitVec.and_allOnes

/-- A row of format `XYN` with `n` fixed. -/
theorem hasRow_XYN (t x y n : BitVec 4) : HasRow 0xF00F (layoutXYN t 0 0 n) (layoutXYN t x y n) := by
  rw [HasRow, show (0xF00F : Opcode) = layoutXYN 0xF 0 0 0xF from by decide, layoutXYN_and]
  simp [and_nibble]

/-- A row of format `XYN` with `n` an operand. -/
theorem hasRow_XYN_free (t x y n : BitVec 4) : HasRow 0xF000 (layoutXYN t 0 0 0) (layoutXYN t x y n) := by
  rw [HasRow, show (0xF000 : Opcode) = layoutXYN 0xF 0 0 0 from by decide, layoutXYN_and]
  simp [and_nibble]

/-- A row of format `XNN`. -/
theorem hasRow_XNN (t x : BitVec 4) (nn : BitVec 8) : HasRow 0xF000 (layoutXNN t 0 0) (layoutXNN t x nn) := by
  rw [HasRow, show (0xF000 : Opcode) = layoutXNN 0xF 0 0 from by decide, layoutXNN_and]
  simp [and_nibble]

/-- A row of format `XSUB`. -/
theorem hasRow_XSUB (t x : BitVec 4) (nn : BitVec 8) : HasRow 0xF0FF (layoutXNN t 0 nn) (layoutXNN t x nn) := by
  rw [HasRow, show (0xF0FF : Opcode) = layoutXNN 0xF 0 0xFF from by decide, layoutXNN_and]
  simp [and_nibble, and_byte]

/-- A row of format `NNN`. -/
theorem hasRow_NNN (t : BitVec 4) (nnn : BitVec 12) : HasRow 0xF000 (layoutNNN t 0) (layoutNNN t nnn) := by
  rw [HasRow, show (0xF000 : Opcode) = layoutNNN 0xF 0 from by decide, layoutNNN_and]
  simp [and_nibble]

/-! ### One lemma per constructor -/

theorem cls : Statement .cls := show _ &&& _ = _ from by decide
theorem ret : Statement .ret := show _ &&& _ = _ from by decide
theorem jp (nnn : BitVec 12) : Statement (.jp nnn) := hasRow_NNN _ _
theorem call (nnn : BitVec 12) : Statement (.call nnn) := hasRow_NNN _ _
theorem seImm (x : RegIdx) (nn : Byte) : Statement (.seImm x nn) := hasRow_XNN _ _ _
theorem sneImm (x : RegIdx) (nn : Byte) : Statement (.sneImm x nn) := hasRow_XNN _ _ _
theorem seReg (x : RegIdx) (y : RegIdx) : Statement (.seReg x y) := hasRow_XYN _ _ _ _
theorem ldImm (x : RegIdx) (nn : Byte) : Statement (.ldImm x nn) := hasRow_XNN _ _ _
theorem addImm (x : RegIdx) (nn : Byte) : Statement (.addImm x nn) := hasRow_XNN _ _ _
theorem ldReg (x : RegIdx) (y : RegIdx) : Statement (.ldReg x y) := hasRow_XYN _ _ _ _
theorem orReg (x : RegIdx) (y : RegIdx) : Statement (.orReg x y) := hasRow_XYN _ _ _ _
theorem andReg (x : RegIdx) (y : RegIdx) : Statement (.andReg x y) := hasRow_XYN _ _ _ _
theorem xorReg (x : RegIdx) (y : RegIdx) : Statement (.xorReg x y) := hasRow_XYN _ _ _ _
theorem addReg (x : RegIdx) (y : RegIdx) : Statement (.addReg x y) := hasRow_XYN _ _ _ _
theorem sub (x : RegIdx) (y : RegIdx) : Statement (.sub x y) := hasRow_XYN _ _ _ _
theorem shr (x : RegIdx) (y : RegIdx) : Statement (.shr x y) := hasRow_XYN _ _ _ _
theorem subn (x : RegIdx) (y : RegIdx) : Statement (.subn x y) := hasRow_XYN _ _ _ _
theorem shl (x : RegIdx) (y : RegIdx) : Statement (.shl x y) := hasRow_XYN _ _ _ _
theorem sneReg (x : RegIdx) (y : RegIdx) : Statement (.sneReg x y) := hasRow_XYN _ _ _ _
theorem ldI (nnn : BitVec 12) : Statement (.ldI nnn) := hasRow_NNN _ _
theorem jpV0 (nnn : BitVec 12) : Statement (.jpV0 nnn) := hasRow_NNN _ _
theorem rnd (x : RegIdx) (nn : Byte) : Statement (.rnd x nn) := hasRow_XNN _ _ _
theorem drw (x : RegIdx) (y : RegIdx) (n : Fin 16) : Statement (.drw x y n) := hasRow_XYN_free _ _ _ _
theorem skp (x : RegIdx) : Statement (.skp x) := hasRow_XSUB _ _ _
theorem sknp (x : RegIdx) : Statement (.sknp x) := hasRow_XSUB _ _ _
theorem ldVxDt (x : RegIdx) : Statement (.ldVxDt x) := hasRow_XSUB _ _ _
theorem ldVxK (x : RegIdx) : Statement (.ldVxK x) := hasRow_XSUB _ _ _
theorem ldDtVx (x : RegIdx) : Statement (.ldDtVx x) := hasRow_XSUB _ _ _
theorem ldStVx (x : RegIdx) : Statement (.ldStVx x) := hasRow_XSUB _ _ _
theorem addIVx (x : RegIdx) : Statement (.addIVx x) := hasRow_XSUB _ _ _
theorem ldFVx (x : RegIdx) : Statement (.ldFVx x) := hasRow_XSUB _ _ _
theorem ldBVx (x : RegIdx) : Statement (.ldBVx x) := hasRow_XSUB _ _ _
theorem ldMemVx (x : RegIdx) : Statement (.ldMemVx x) := hasRow_XSUB _ _ _
theorem ldVxMem (x : RegIdx) : Statement (.ldVxMem x) := hasRow_XSUB _ _ _

end Sys2Proof.Laws.TableRow
end

