-- ==== Sys2Proof/Laws/Step.lean ====
section
/-! SUPPORT. The cycle, said once: what a fetch reads, and what a cycle does in each of its cases (R131 to R138). -/

namespace Sys2Proof.Machine

/-! ### Fetch -/

/-- The next fetch gives `op` exactly when the bytes at pc compose to it. -/
theorem fetch_ok_iff (s : State) (op : Opcode) : fetch s = .ok op ↔ s.Fetches op := by
  unfold fetch State.Fetches
  split
  · rename_i h
    simp only [reduceCtorEq, false_iff, not_and]
    intro h'
    exact absurd h (Nat.not_le.2 h')
  · rename_i h
    simp only [Except.ok.injEq]
    rw [← composeOpcode_toNat, eq_comm, ← BitVec.toNat_inj]
    exact ⟨fun h' => ⟨Nat.not_le.1 h, h'⟩, fun h' => h'.2⟩

theorem fetch_error {s : State} (h : memorySize ≤ s.pc.toNat + 1) :
    fetch s = .error (.addressOutOfRange (if memorySize ≤ s.pc.toNat then s.pc.toNat else memorySize)) :=
  if_pos h

/-! ### The cases of a cycle -/

theorem cycle_halted {s : State} {r : ErrorRecord} (h : s.halted = some r) : cycle s = .next (s, .err r) := by
  simp [cycle, h]

theorem cycle_fetch_error {s : State} {e : StepError} (h : s.halted = none) (hf : fetch s = .error e) :
    cycle s = .next (failWith s e none) := by
  simp [cycle, h, hf]

theorem cycle_unknown {s : State} {op : Opcode} {d : DecodeError} (h : s.halted = none) (hf : fetch s = .ok op)
    (hd : decode s.cfg.zeroHeightDraw op = .error d) :
    cycle s = .next (failWith s (.unknownOpcode op) (some op)) := by
  simp [cycle, h, hf, hd]

theorem cycle_exec {s t : State} {op : Opcode} {i : Instr} (h : s.halted = none) (hf : fetch s = .ok op)
    (hd : decode s.cfg.zeroHeightDraw op = .ok i) (he : exec i s = .next t) :
    cycle s = .next (finish t) := by
  simp [cycle, h, hf, hd, he]

theorem finish_ok {t : State} (h : t.halted = none) : finish t = (t.tick, .ok t.toneExpires) := by
  simp [finish, h]

theorem finish_err {t : State} {r : ErrorRecord} (h : t.halted = some r) : finish t = (t, .err r) := by
  simp [finish, h]

theorem step_of_cycle {s t : State} {r : StepResult} (h : cycle s = .next (t, r)) : step s = .next t := by
  simp [step, cycleState, h]

theorem stepResult_of_cycle {s t : State} {r : StepResult} (h : cycle s = .next (t, r)) : stepResult s = some r := by
  simp [stepResult, h]

/-- A cycle that answers next: the machine was halted, or the fetch failed, or the opcode is unknown, or an instruction
executed. -/
theorem cycle_cases {s : State} {p : State × StepResult} (h : cycle s = .next p) :
    (∃ r, s.halted = some r ∧ p = (s, .err r)) ∨
    (s.halted = none ∧ ∃ e, fetch s = .error e ∧ p = failWith s e none) ∨
    (s.halted = none ∧ ∃ op d, fetch s = .ok op ∧ decode s.cfg.zeroHeightDraw op = .error d ∧
      p = failWith s (.unknownOpcode op) (some op)) ∨
    (s.halted = none ∧ ∃ op i t, fetch s = .ok op ∧ decode s.cfg.zeroHeightDraw op = .ok i ∧
      exec i s = .next t ∧ p = finish t) := by
  cases hh : s.halted with
  | some r => exact .inl ⟨r, rfl, by simpa [cycle_halted hh] using h.symm⟩
  | none =>
    cases hf : fetch s with
    | error e => exact .inr (.inl ⟨rfl, e, rfl, by simpa [cycle_fetch_error hh hf] using h.symm⟩)
    | ok op =>
      cases hd : decode s.cfg.zeroHeightDraw op with
      | error d => exact .inr (.inr (.inl ⟨rfl, op, d, rfl, hd, by simpa [cycle_unknown hh hf hd] using h.symm⟩))
      | ok i =>
        cases he : exec i s with
        | next t => exact .inr (.inr (.inr ⟨rfl, op, i, t, rfl, hd, he, by simpa [cycle_exec hh hf hd he] using h.symm⟩))
        | fault f => cases f
        | refused r => simp [cycle, hh, hf, hd, he] at h

/-! ### Where the next instruction is stored -/

/-- After `placeOpcode` the next fetch reads that opcode, wherever a fetch can read at all. -/
theorem fetch_placeOpcode (s : State) (op : Opcode) (h : s.pc.toNat + 1 < memorySize) :
    fetch (placeOpcode s op) = .ok op := by
  have h' : ¬ memorySize ≤ s.pc.toNat + 1 := Nat.not_le.2 h
  unfold fetch placeOpcode
  simp [h', State.byteAt, Memory.writeAll, Memory.read_write]

end Sys2Proof.Machine
end

