-- ==== Sys2Proof/Tests/Slice0.lean ====
section
/-! SUPPORT. The model's own tests: words written out from the layouts of R92 and the map of R96, vectors of
spec/95_test_vectors.md (each cited by its id), and for every statement with hypotheses a witness that meets them. -/

namespace Sys2Proof.Tests

open Sys2Proof.Machine

/-! ### Well-formedness (R95, R282) -/

theorem test_wellFormed_refuses_height_zero : Instr.wellFormed .unknown (.drw 0 0 0) = false := by decide
theorem test_wellFormed_accepts_empty_draw : Instr.wellFormed .empty (.drw 0 0 0) = true := by decide
theorem test_wellFormed_accepts_height_one : Instr.wellFormed .unknown (.drw 15 15 1) = true := by decide

/-! ### Decoding: one word for every instruction, its nibbles written from R92 and R96 -/

theorem test_decode_fixed :
    decodeTableWord 16 0b0000_0000_1110_0000 = some .cls ∧ decodeTableWord 16 0b0000_0000_1110_1110 = some .ret := by
  decide

theorem test_decode_nnn :
    decodeTableWord 16 0b0001_1010_1011_1100 = some (.jp 0xABC) ∧
    decodeTableWord 16 0b0010_1010_1011_1100 = some (.call 0xABC) ∧
    decodeTableWord 16 0b1010_1010_1011_1100 = some (.ldI 0xABC) ∧
    decodeTableWord 16 0b1011_1010_1011_1100 = some (.jpV0 0xABC) := by decide

theorem test_decode_xnn :
    decodeTableWord 16 0b0011_1010_1011_1100 = some (.seImm 0xA 0xBC) ∧
    decodeTableWord 16 0b0100_1010_1011_1100 = some (.sneImm 0xA 0xBC) ∧
    decodeTableWord 16 0b0110_1010_1011_1100 = some (.ldImm 0xA 0xBC) ∧
    decodeTableWord 16 0b0111_1010_1011_1100 = some (.addImm 0xA 0xBC) ∧
    decodeTableWord 16 0b1100_1010_1011_1100 = some (.rnd 0xA 0xBC) := by decide

theorem test_decode_xyn :
    decodeTableWord 16 0b0101_1010_1011_0000 = some (.seReg 0xA 0xB) ∧
    decodeTableWord 16 0b1001_1010_1011_0000 = some (.sneReg 0xA 0xB) ∧
    decodeTableWord 16 0b1101_1010_1011_1100 = some (.drw 0xA 0xB 0xC) := by decide

theorem test_decode_alu :
    decodeTableWord 16 0b1000_1010_1011_0000 = some (.ldReg 0xA 0xB) ∧
    decodeTableWord 16 0b1000_1010_1011_0001 = some (.orReg 0xA 0xB) ∧
    decodeTableWord 16 0b1000_1010_1011_0010 = some (.andReg 0xA 0xB) ∧
    decodeTableWord 16 0b1000_1010_1011_0011 = some (.xorReg 0xA 0xB) ∧
    decodeTableWord 16 0b1000_1010_1011_0100 = some (.addReg 0xA 0xB) ∧
    decodeTableWord 16 0b1000_1010_1011_0101 = some (.sub 0xA 0xB) ∧
    decodeTableWord 16 0b1000_1010_1011_0110 = some (.shr 0xA 0xB) ∧
    decodeTableWord 16 0b1000_1010_1011_0111 = some (.subn 0xA 0xB) ∧
    decodeTableWord 16 0b1000_1010_1011_1110 = some (.shl 0xA 0xB) := by decide

theorem test_decode_key :
    decodeTableWord 16 0b1110_1010_1001_1110 = some (.skp 0xA) ∧
    decodeTableWord 16 0b1110_1010_1010_0001 = some (.sknp 0xA) := by decide

theorem test_decode_misc :
    decodeTableWord 16 0b1111_1010_0000_0111 = some (.ldVxDt 0xA) ∧
    decodeTableWord 16 0b1111_1010_0000_1010 = some (.ldVxK 0xA) ∧
    decodeTableWord 16 0b1111_1010_0001_0101 = some (.ldDtVx 0xA) ∧
    decodeTableWord 16 0b1111_1010_0001_1000 = some (.ldStVx 0xA) ∧
    decodeTableWord 16 0b1111_1010_0001_1110 = some (.addIVx 0xA) ∧
    decodeTableWord 16 0b1111_1010_0010_1001 = some (.ldFVx 0xA) ∧
    decodeTableWord 16 0b1111_1010_0011_0011 = some (.ldBVx 0xA) ∧
    decodeTableWord 16 0b1111_1010_0101_0101 = some (.ldMemVx 0xA) ∧
    decodeTableWord 16 0b1111_1010_0110_0101 = some (.ldVxMem 0xA) := by decide

/-- The unknown words of vectors CY1 to CY6, SK8, SK11, AL36, AL37 and DR12. -/
theorem test_decode_unknown :
    [0xFFFF, 0x0000, 0x0123, 0x00E1, 0xE0FF, 0xF0FF, 0x5121, 0x9128, 0x8018, 0x801F, 0xD010].all
      (fun w => decodeTableWord 16 w == none) = true := by decide

theorem test_decode_bytes_needs_two : decodeBytes .unknown [0x60] = .error .notTwoBytes := by decide

/-! ### One step -/

/-- Reset state with the listed registers set and I, and with these bytes stored at 0x300. -/
def start (regs : List (RegIdx × Byte)) (i : Addr := 0) (bytes : List Byte := []) : State :=
  let s := regs.foldl (fun t r => t.setReg r.1 r.2) State.reset
  { s with i := i, mem := Memory.writeAll s.cfg.font s.mem 0x300 bytes }

/-- The next state of an answer, if it is one. -/
def nextOf {α : Type} : Host.Outcome α Fault Refusal → Option α
  | .next t => some t
  | _ => none

/-- The state after one step. -/
def stepped (s : State) : State := (nextOf (step s)).getD s

/-- The state after one step that runs the given opcode. -/
def after (op : Nat) (s : State) : State := stepped (s.withFetchWord 16 op)

/-- What that step returns. -/
def returned (op : Nat) (s : State) : Option StepResult := stepResult (s.withFetchWord 16 op)

/-- CF1. -/
theorem test_ret : let s := { start [] with sp := 1, stack := State.reset.stack.set 0 0x204 }
    (after 0x00EE s).pc = 0x206 ∧ (after 0x00EE s).sp = 0 := by decide
/-- CF2. -/
theorem test_ret_underflow : returned 0x00EE (start []) =
    some (.err { error := .stackUnderflow, op := some 0x00EE, pc := 0x200 }) := by decide
/-- CF5. -/
theorem test_jp : (after 0x1FFF (start [])).pc = 0xFFF := by decide
/-- CF8. -/
theorem test_call : let s := { start [] with pc := 0x204, sp := 15 }
    (after 0x2215 s).pc = 0x215 ∧ (after 0x2215 s).sp = 16 ∧ (after 0x2215 s).stack[15] = 0x204 := by decide
/-- CF7. -/
theorem test_call_overflow : returned 0x2210 { start [] with pc := 0x204, sp := 16 } =
    some (.err { error := .stackOverflow, op := some 0x2210, pc := 0x204 }) := by decide
/-- CF10. -/
theorem test_jpV0 : (after 0xBFFF (start [(0, 0xFF)])).pc = 0x10FE := by decide

/-- SK1, SK2. -/
theorem test_seImm : (after 0x3312 (start [(3, 0x12)])).pc = 0x204 ∧
    (after 0x3312 (start [(3, 0x13)])).pc = 0x202 := by decide
/-- SK3, SK4. -/
theorem test_sneImm : (after 0x4312 (start [(3, 0x12)])).pc = 0x202 ∧ (after 0x4312 (start [])).pc = 0x204 := by decide
/-- SK5, SK6. -/
theorem test_seReg : (after 0x5120 (start [(1, 7), (2, 7)])).pc = 0x204 ∧
    (after 0x5120 (start [(1, 7), (2, 8)])).pc = 0x202 := by decide
/-- SK9, SK10. -/
theorem test_sneReg : (after 0x9120 (start [(1, 7), (2, 8)])).pc = 0x204 ∧
    (after 0x9110 (start [(1, 7)])).pc = 0x202 := by decide

/-- AL2. -/
theorem test_ldImm : (after 0x6FAA (start [])).reg 15 = 0xAA := by decide
/-- AL3: VF keeps its value. -/
theorem test_addImm : (after 0x71FF (start [(1, 5), (15, 7)])).reg 1 = 4 ∧
    (after 0x71FF (start [(1, 5), (15, 7)])).reg 15 = 7 := by decide
/-- AL6. -/
theorem test_ldReg : (after 0x8120 (start [(2, 0x42)])).reg 1 = 0x42 := by decide
/-- AL7: VF keeps its value. -/
theorem test_orReg : (after 0x8121 (start [(1, 0x0F), (2, 0xF0), (15, 5)])).reg 1 = 0xFF ∧
    (after 0x8121 (start [(1, 0x0F), (2, 0xF0), (15, 5)])).reg 15 = 5 := by decide
/-- AL8. -/
theorem test_andReg : (after 0x8122 (start [(1, 0x3C), (2, 0x0F)])).reg 1 = 0x0C := by decide
/-- AL9. -/
theorem test_xorReg : (after 0x8123 (start [(1, 0xFF), (2, 0x0F)])).reg 1 = 0xF0 := by decide
/-- AL13. -/
theorem test_addReg : (after 0x8014 (start [(0, 0xFF), (1, 0xFF)])).reg 0 = 0xFE ∧
    (after 0x8014 (start [(0, 0xFF), (1, 0xFF)])).reg 15 = 1 := by decide
/-- AL15, AL16: VF as destination and as source. -/
theorem test_addReg_vf : (after 0x8F04 (start [(15, 0xF0), (0, 0x20)])).reg 15 = 1 ∧
    (after 0x80F4 (start [(0, 0x10), (15, 1)])).reg 0 = 0x11 := by decide
/-- AL18, AL19. -/
theorem test_sub : (after 0x8015 (start [(0, 3), (1, 5), (15, 1)])).v.toList.take 2 = [0xFE, 5] ∧
    (after 0x8015 (start [(0, 3), (1, 5), (15, 1)])).reg 15 = 0 ∧ (after 0x8015 (start [(0, 5), (1, 5)])).reg 15 = 1 := by
  decide
/-- AL21. -/
theorem test_sub_vf : (after 0x8F15 (start [(15, 2), (1, 3)])).reg 15 = 0 := by decide
/-- AL22, AL23. -/
theorem test_subn : (after 0x8017 (start [(0, 3), (1, 5)])).reg 0 = 2 ∧ (after 0x8017 (start [(0, 3), (1, 5)])).reg 15 = 1 ∧
    (after 0x8017 (start [(0, 5), (1, 3), (15, 1)])).reg 15 = 0 := by decide
/-- AL27. -/
theorem test_shr : (after 0x8016 (start [(0, 5), (1, 0x80)])).reg 0 = 2 ∧
    (after 0x8016 (start [(0, 5), (1, 0x80)])).reg 15 = 1 := by decide
/-- AL26: `SHIFT_SOURCE = VY`. -/
theorem test_shr_vy :
    (after 0x8016 { start [(0, 5), (1, 0x80)] with cfg := { Config.default with shiftSource := .vy } }).reg 0 = 0x40 := by
  decide
/-- AL29, AL30. -/
theorem test_shl : (after 0x800E (start [(0, 0x81)])).reg 0 = 2 ∧ (after 0x800E (start [(0, 0x81)])).reg 15 = 1 ∧
    (after 0x800E (start [(0, 0x7F)])).reg 15 = 0 := by decide
/-- AL32. -/
theorem test_shl_vf : (after 0x8FFE (start [(15, 0x80)])).reg 15 = 1 := by decide
/-- AL33, AL35: the draw as an argument. -/
theorem test_rnd : (rndWith 0xA5 3 0x0F (start [])).reg 3 = 0x05 ∧ (rndWith 0x5C 3 0xFF (start [])).reg 3 = 0x5C := by
  decide

/-- IM1. -/
theorem test_ldI : (after 0xA300 (start [])).i = 0x300 := by decide
/-- IM4: the sum wraps at 2^16 and VF keeps its value. -/
theorem test_addIVx : (after 0xF01E (start [(0, 1), (15, 9)] (i := 0xFFFF))).i = 0 ∧
    (after 0xF01E (start [(0, 1), (15, 9)] (i := 0xFFFF))).reg 15 = 9 := by decide
/-- IM6. -/
theorem test_ldFVx : (after 0xF029 (start [(0, 0xAB)])).i = 0x037 := by decide
/-- IM7. -/
theorem test_ldBVx : ([0x300, 0x301, 0x302].map (after 0xFA33 (start [(0xA, 0x7B)] (i := 0x300))).byteAt) = [1, 2, 3] := by
  decide
/-- IM11: the lowest failing address, and the bytes below it are not written either. -/
theorem test_ldBVx_fault : returned 0xFA33 (start [(0xA, 0x64)] (i := 0xFFE)) =
      some (.err { error := .addressOutOfRange 0x1000, op := some 0xFA33, pc := 0x200 }) ∧
    (after 0xFA33 (start [(0xA, 0x64)] (i := 0xFFE))).byteAt 0xFFE = 0 := by decide
/-- IM15. -/
theorem test_ldMemVx :
    let s := { start [(0, 1), (1, 2), (2, 3)] (i := 0x300) with cfg := { Config.default with loadStoreIncrement := .xPlus1 } }
    ([0x300, 0x301, 0x302, 0x303].map (after 0xF255 s).byteAt) = [1, 2, 3, 0] ∧ (after 0xF255 s).i = 0x303 := by decide
/-- IM18. -/
theorem test_ldMemVx_reserved : returned 0xF055 (start [(0, 0x11)] (i := 0x1FF)) =
    some (.err { error := .reservedWrite 0x1FF, op := some 0xF055, pc := 0x200 }) := by decide
/-- IM19. -/
theorem test_ldVxMem : (after 0xF265 (start [] (i := 0x300) (bytes := [1, 2, 3, 4]))).v.toList.take 4 = [1, 2, 3, 0] ∧
    (after 0xF265 (start [] (i := 0x300) (bytes := [1, 2, 3, 4]))).i = 0x300 := by decide
/-- IM21. -/
theorem test_ldVxMem_fault : returned 0xFF65 (start [] (i := 0xFF1)) =
    some (.err { error := .addressOutOfRange 0x1000, op := some 0xFF65, pc := 0x200 }) := by decide

/-- DR1. -/
theorem test_cls :
    let s := { start [] with fb := Display.setPixel State.reset.fb 5 5 true, dirty := false }
    (after 0x00E0 s).pixel 5 5 = false ∧ (after 0x00E0 s).dirty = true := by decide +kernel
/-- DR6: wraparound in both directions. -/
theorem test_drw :
    let t := after 0xD012 (start [(0, 0x3C), (1, 0x1F)] (i := 0x300) (bytes := [0xFF, 0x81]))
    t.framebuffer.count true = 10 ∧
    ([0, 1, 2, 3, 60, 61, 62, 63].all fun c => t.pixel 31 c) = true ∧ t.pixel 0 3 = true ∧ t.pixel 0 60 = true ∧
    t.reg 15 = 0 := by decide +kernel
/-- DR5: a collision where the sprite turns a pixel off. -/
theorem test_drw_collision :
    let t := after 0xD011 { start [] (i := 0x300) (bytes := [0x81]) with fb := Display.setPixel State.reset.fb 0 0 true }
    t.reg 15 = 1 ∧ t.pixel 0 0 = false ∧ t.pixel 0 7 = true := by decide +kernel

/-- TK1, TK2. -/
theorem test_skp : (after 0xE59E ((start [(5, 0xA)]).setKey 0xA true)).pc = 0x204 ∧
    (after 0xE59E (start [(5, 0xA)])).pc = 0x202 := by decide
/-- TK5. -/
theorem test_skp_fault : returned 0xE59E (start [(5, 0x1A)]) =
    some (.err { error := .keyIndexOutOfRange 0x1A, op := some 0xE59E, pc := 0x200 }) := by decide
/-- TK3, TK4. -/
theorem test_sknp : (after 0xE5A1 (start [(5, 0xA)])).pc = 0x204 ∧
    (after 0xE5A1 ((start [(5, 0xA)]).setKey 0xA true)).pc = 0x202 := by decide
/-- TK7. -/
theorem test_ldVxDt : (after 0xF307 { start [] with dt := 5 }).reg 3 = 5 ∧
    (after 0xF307 { start [] with dt := 5 }).dt = 4 := by decide
/-- TK9: blocked, and the timer still counts. -/
theorem test_ldVxK_blocked : (after 0xF20A { start [] with pc := 0x206, dt := 3 }).pc = 0x206 ∧
    (after 0xF20A { start [] with pc := 0x206, dt := 3 }).dt = 2 := by decide
/-- TK11, TK12: the choice as an argument, index 1 and index 0 of the pressed keys 3 and 9. -/
theorem test_ldVxK : let s := ((start []).setKey 9 true).setKey 3 true
    (keyWaitWith 1 2 s).reg 2 = 9 ∧ (keyWaitWith 0 2 s).reg 2 = 3 ∧ (keyWaitWith 1 2 s).pc = 0x202 := by decide
/-- TK13. -/
theorem test_ldDtVx : (after 0xF015 (start [(0, 3)])).dt = 2 := by decide
/-- TK16, TK17. -/
theorem test_ldStVx : (after 0xF118 (start [(1, 2)])).st = 1 ∧ returned 0xF118 (start [(1, 1)]) = some (.ok true) ∧
    returned 0xF118 (start [(1, 2)]) = some (.ok false) := by decide

/-- CY8, CY9, CY10. -/
theorem test_fetch_outside :
    fetch { start [] with pc := 0xFFF } = .error (.addressOutOfRange 0x1000) ∧
    fetch { start [] with pc := 0x1000 } = .error (.addressOutOfRange 0x1000) ∧
    fetch { start [] with pc := 0x10FE } = .error (.addressOutOfRange 0x10FE) := by decide
/-- LC2 and CY3: the step after reset, and no tick in a failing step. -/
theorem test_unknown : stepResult State.reset = some (.err { error := .unknownOpcode 0, op := some 0, pc := 0x200 }) ∧
    (after 0x0123 { start [] with dt := 5 }).dt = 5 := by decide
/-- LC5. -/
theorem test_loadProgram_overlays :
    let s := (State.reset.hostApply (.load [0xAA, 0xBB, 0xCC])).hostApply (.load [0x11])
    [0x200, 0x201, 0x202].map s.byteAt = [0x11, 0xBB, 0xCC] := by decide
/-- L1-6: five bytes from 0x037 are the glyph of digit 0xB (R63). -/
theorem test_font : ([0x037, 0x038, 0x039, 0x03A, 0x03B].map State.reset.byteAt) = [0xE0, 0x90, 0xE0, 0x90, 0xE0] := by
  decide

/-! ### Witnesses: for every statement with hypotheses, states and operands that meet them -/

/-- Reset state with an opcode, and the one after it, stored at pc. -/
def placed (op : Nat) (s : State := State.reset) (next : Nat := 0) : State :=
  let t := s.withFetchWord 16 op
  let bytes := [opcodeHigh (tableOpcode 16 next), opcodeLow (tableOpcode 16 next)]
  { t with mem := Memory.writeAll t.cfg.font t.mem (t.pc.toNat + 2) bytes }

/-- A machine halted by an unknown opcode (CY1). -/
def stopped : State := after 0xFFFF State.reset

/-- The record it holds. -/
def stoppedRecord : ErrorRecord := { error := .unknownOpcode 0xFFFF, op := some 0xFFFF, pc := 0x200 }

/-- Reset state with an index register and parameters. -/
def indexed (i : Addr) (cfg : Config := Config.default) : State := { State.reset with i := i, cfg := cfg }

/-- The default parameters, but for writes below 0x200. -/
def allowing : Config := { Config.default with reservedWrite := .allow }

theorem eq_next_of_nextOf {α : Type} {o : Host.Outcome α Fault Refusal} {t : α} (h : nextOf o = some t) : o = .next t := by
  cases o with
  | next u => exact congrArg _ (Option.some.inj h)
  | fault f => cases f
  | refused r => cases h

theorem step_stepped {s : State} (h : (nextOf (step s)).isSome = true) : step s = .next (stepped s) := by
  obtain ⟨t, ht⟩ := Option.isSome_iff_exists.1 h
  rw [eq_next_of_nextOf ht, stepped, ht]
  rfl

theorem fetches_of_fetch {s : State} {op : Opcode} (h : fetch s = .ok op) : s.Fetches op := (fetch_ok_iff s op).1 h

theorem witness_InitializeSetsEveryResetValue : ∃ t : State, t ≠ State.reset ∧ t = stopped.hostInit.setKey 0 true ∧
    ∃ s : State, stopped.hostInit = s.hostInit := ⟨_, by decide, rfl, stopped, rfl⟩

theorem witness_LoadProgramCopiesOrRejectsWhole_fits : (List.replicate 3584 (0xAA : Byte)).length ≤ 3584 := by
  rw [List.length_replicate]
theorem witness_LoadProgramCopiesOrRejectsWhole_tooLarge : 3584 < (List.replicate 3585 (0xAA : Byte)).length := by
  rw [List.length_replicate]; decide

theorem witness_StepRunsTheDecodedInstruction_ok :
    let s := placed 0x6005
    s.halted = none ∧ s.Fetches 0x6005 ∧ decode s.cfg.zeroHeightDraw 0x6005 = .ok (.ldImm 0 5) ∧
      exec (.ldImm 0 5) s = .next ((s.setReg 0 5).advance 2) ∧ ((s.setReg 0 5).advance 2).halted = none :=
  ⟨rfl, fetches_of_fetch (by decide +kernel), by decide, rfl, rfl⟩
theorem witness_StepRunsTheDecodedInstruction_err :
    let s := placed 0x00EE
    s.halted = none ∧ s.Fetches 0x00EE ∧ decode s.cfg.zeroHeightDraw 0x00EE = .ok .ret ∧
      exec .ret s = .next (s.haltedWith .stackUnderflow (some 0x00EE)) ∧
      (s.haltedWith .stackUnderflow (some 0x00EE)).halted ≠ none :=
  ⟨rfl, fetches_of_fetch (by decide +kernel), by decide, eq_next_of_nextOf (by decide +kernel), by decide⟩

theorem witness_HaltedStepReturnsTheSameError : stopped.halted = some stoppedRecord := by decide

theorem witness_FetchReadsTwoBytesOrRaises_inside : ({ State.reset with pc := 0xFFE } : State).pc.toNat + 1 < 0x1000 := by
  decide
theorem witness_FetchReadsTwoBytesOrRaises_outside :
    let s := { State.reset with pc := 0x1000 }
    s.halted = none ∧ 0x1000 ≤ s.pc.toNat := by decide
theorem witness_FetchReadsTwoBytesOrRaises_last :
    let s := { State.reset with pc := 0xFFF }
    s.halted = none ∧ s.pc.toNat = 0xFFF := by decide

theorem witness_UnknownOpcodeIsReported :
    let s := placed 0xFFFF
    s.halted = none ∧ s.Fetches 0xFFFF ∧ ∀ i, decode s.cfg.zeroHeightDraw 0xFFFF ≠ .ok i :=
  ⟨rfl, fetches_of_fetch (by decide +kernel), fun i h => by
    have h' : decode .unknown 0xFFFF = .error (.unknown 0xFFFF) := by decide
    cases h'.symm.trans h⟩

theorem witness_FailingStepChangesOnlyHalted :
    let s := placed 0xFFFF
    cycle s = .next (s.haltedWith (.unknownOpcode 0xFFFF) (some 0xFFFF), .err stoppedRecord) ∧ s.halted = none :=
  ⟨eq_next_of_nextOf (by decide +kernel), rfl⟩

theorem witness_SuccessfulStepTicksTheTimers :
    let s := { placed 0x6005 with st := 1 }
    s.halted = none ∧ s.Fetches 0x6005 ∧ decode s.cfg.zeroHeightDraw 0x6005 = .ok (.ldImm 0 5) ∧
      exec (.ldImm 0 5) s = .next ((s.setReg 0 5).advance 2) ∧ ((s.setReg 0 5).advance 2).halted = none :=
  ⟨rfl, fetches_of_fetch (by decide +kernel), by decide, rfl, rfl⟩

theorem witness_SuccessfulStepTicksTheTimers_err :
    let t := (placed 0x00EE).haltedWith .stackUnderflow (some 0x00EE)
    exec .ret (placed 0x00EE) = .next t ∧
      t.halted = some { error := .stackUnderflow, op := some 0x00EE, pc := 0x200 } :=
  ⟨eq_next_of_nextOf (by decide +kernel), by decide +kernel⟩

theorem witness_DecodeOfEncodeIsTheInstruction : Instr.wellFormed .unknown (.drw 15 0 15) = true := by decide
theorem witness_DecodedOpcodesAreEncodings : decode .empty 0xD120 = .ok (.drw 1 2 0) := by decide

theorem witness_ReturnResumesAfterTheCall_one : ({ State.reset with sp := 1 } : State).sp.val = (0 : Fin 16).val + 1 := by
  decide
theorem witness_ReturnResumesAfterTheCall_full : ({ State.reset with sp := 16 } : State).sp.val = (15 : Fin 16).val + 1 := by
  decide
theorem witness_ReturnResumesAfterTheCall_empty : State.reset.sp.val = 0 := by decide

theorem witness_CallPushesItsOwnAddress_first : State.reset.sp.val = (0 : Fin 16).val := by decide
theorem witness_CallPushesItsOwnAddress_last : ({ State.reset with sp := 15 } : State).sp.val = (15 : Fin 16).val := by decide
theorem witness_CallPushesItsOwnAddress_full : ({ State.reset with sp := 16 } : State).sp.val = 16 := by decide

theorem witness_ReturnAfterCallContinuesAfterIt :
    let s := { State.reset with sp := 15 }
    let t := (nextOf (exec (.call 0x210) s)).getD s
    let u := t.setReg 3 9
    s.sp.val < 16 ∧ exec (.call 0x210) s = .next t ∧ u.sp = t.sp ∧
      ∀ j : Fin 16, j.val < t.sp.val → u.stack[j.val] = t.stack[j.val] :=
  ⟨by decide, eq_next_of_nextOf (by decide +kernel), rfl, fun _ _ => rfl⟩

theorem witness_ShiftsMoveOneBitIntoVF_vx : IsShiftOperand (start [(0, 5), (1, 0x80)]) 0 1 5 := .inl ⟨rfl, by decide⟩
theorem witness_ShiftsMoveOneBitIntoVF_vy :
    IsShiftOperand { start [(0, 5), (1, 0x80)] with cfg := { Config.default with shiftSource := .vy } } 0 1 0x80 :=
  .inr ⟨rfl, by decide⟩

theorem writable_of_range {cfg : Config} {a : Nat} (h : 0x200 ≤ a) (h' : a < 0x1000) : Writable cfg a := ⟨h', .inl h⟩

theorem witness_StoreDecimalDigits_top : ∀ k, k < 3 → Writable Config.default ((indexed 0xFFD).i.toNat + k) := by
  intro k hk
  have : (indexed 0xFFD).i.toNat = 0xFFD := by decide
  exact writable_of_range (by omega) (by omega)
theorem witness_StoreDecimalDigits_allowed : ∀ k, k < 3 → Writable allowing ((indexed 0x000 allowing).i.toNat + k) := by
  intro k hk
  have : (indexed 0x000 allowing).i.toNat = 0 := by decide
  exact ⟨by omega, .inr rfl⟩
theorem witness_StoreDecimalDigits_beyond :
    (∀ j, j < 2 → Writable Config.default ((indexed 0xFFE).i.toNat + j)) ∧
      StoreFails Config.default ((indexed 0xFFE).i.toNat + 2) (.addressOutOfRange 0x1000) := by
  have : (indexed 0xFFE).i.toNat = 0xFFE := by decide
  exact ⟨fun j hj => writable_of_range (by omega) (by omega), .inl ⟨by omega, by rw [this]⟩⟩
theorem witness_StoreDecimalDigits_reserved :
    (∀ j, j < 0 → Writable Config.default ((indexed 0x1FF).i.toNat + j)) ∧
      StoreFails Config.default ((indexed 0x1FF).i.toNat + 0) (.reservedWrite 0x1FF) := by
  have : (indexed 0x1FF).i.toNat = 0x1FF := by decide
  exact ⟨fun j hj => absurd hj (Nat.not_lt_zero j), .inr ⟨by omega, rfl, by rw [this]⟩⟩

theorem witness_RegisterDumpStoresAllOrNothing_top :
    ∀ k, k ≤ (15 : RegIdx).val → Writable Config.default ((indexed 0xFF0).i.toNat + k) := by
  intro k hk
  have : (indexed 0xFF0).i.toNat = 0xFF0 := by decide
  have h15 : (15 : RegIdx).val = 15 := rfl
  exact writable_of_range (by omega) (by omega)
theorem witness_RegisterDumpStoresAllOrNothing_beyond :
    (∀ j, j < 15 → Writable Config.default ((indexed 0xFF1).i.toNat + j)) ∧
      StoreFails Config.default ((indexed 0xFF1).i.toNat + 15) (.addressOutOfRange 0x1000) := by
  have : (indexed 0xFF1).i.toNat = 0xFF1 := by decide
  exact ⟨fun j hj => writable_of_range (by omega) (by omega), .inl ⟨by omega, by rw [this]⟩⟩
theorem witness_RegisterDumpStoresAllOrNothing_reserved :
    (∀ j, j < 0 → Writable Config.default ((indexed 0x1FF).i.toNat + j)) ∧
      StoreFails Config.default ((indexed 0x1FF).i.toNat + 0) (.reservedWrite 0x1FF) :=
  witness_StoreDecimalDigits_reserved

theorem witness_RegisterLoadReadsAllOrNothing_top : (indexed 0xFF0).i.toNat + (15 : RegIdx).val < 0x1000 := by decide
theorem witness_RegisterLoadReadsAllOrNothing_beyond :
    15 ≤ (15 : RegIdx).val ∧ (∀ j, j < 15 → (indexed 0xFF1).i.toNat + j < 0x1000) ∧
      0x1000 ≤ (indexed 0xFF1).i.toNat + 15 := by decide

theorem witness_DrawXorsTheSpriteAndReportsCollision_word :
    (0xD120 : Opcode).toNat = 0xD000 + (1 : RegIdx).val * 256 + (2 : RegIdx).val * 16 := by decide
theorem witness_DrawXorsTheSpriteAndReportsCollision_top :
    ∀ r, r < (1 : Fin 16).val → (indexed 0xFFF).i.toNat + r < 0x1000 := by decide
theorem witness_DrawXorsTheSpriteAndReportsCollision_lands :
    0 < (1 : Fin 16).val ∧ 7 < 8 ∧ LandsOn 60 31 0 7 31 3 := ⟨by decide, by decide, by decide, by decide⟩
theorem witness_DrawXorsTheSpriteAndReportsCollision_misses :
    ∀ r c, r < (1 : Fin 16).val → c < 8 → ¬ LandsOn 0 0 r c 5 9 := by
  intro r c hr hc ⟨h, _⟩
  have h1 : (1 : Fin 16).val = 1 := rfl
  have h5 : (5 : Fin 32).val = 5 := rfl
  omega
theorem witness_DrawXorsTheSpriteAndReportsCollision_beyond :
    1 < (2 : Fin 16).val ∧ (∀ j, j < 1 → (indexed 0xFFF).i.toNat + j < 0x1000) ∧ 0x1000 ≤ (indexed 0xFFF).i.toNat + 1 := by
  decide

theorem reset_pixel (r : Fin 32) (c : Fin 64) : State.reset.pixel r c = false := by
  simp [State.pixel, State.reset, State.resetWith, Display.pixel]

/-- From a clear display, with a sprite that has a 1 bit. -/
theorem witness_DrawingTwiceRestoresTheDisplay :
    let s := start [(0, 0x3C), (1, 0x1F)] (i := 0x300) (bytes := [0xFF])
    ∃ t, (∀ r, r < (1 : Fin 16).val → s.i.toNat + r < 0x1000) ∧ exec (.drw 0 1 1) s = .next t ∧ t.reg 0 = s.reg 0 ∧
      t.reg 1 = s.reg 1 ∧ (∀ r c, s.pixel r c = false) ∧ t.pixel 31 60 = true :=
  ⟨drawSprite 0 1 [0xFF] (start [(0, 0x3C), (1, 0x1F)] (i := 0x300) (bytes := [0xFF])), by decide, by rfl, by decide +kernel,
    by decide +kernel, reset_pixel, by decide +kernel⟩

theorem witness_KeypadSkipsTestTheSelectedKey_digit : KeySelected Config.default 15 15 := .inl (by decide)
theorem witness_KeypadSkipsTestTheSelectedKey_nibble :
    KeySelected { Config.default with keyIndex := .lowNibble } 16 0 := .inr (by decide)
theorem witness_KeypadSkipsTestTheSelectedKey_fault :
    let s := start [(5, 16)]
    15 < (s.reg 5).toNat ∧ s.cfg.keyIndex = .fault := by decide

theorem witness_TimerWritesAreTickedInTheSameStep_delay :
    let s := placed 0xF015 (start [(0, 3)]) 0xF107
    s.halted = none ∧ s.Fetches (encode (.ldDtVx 0)) ∧ (stepped s).Fetches (encode (.ldVxDt 1)) :=
  ⟨rfl, fetches_of_fetch (by decide +kernel), fetches_of_fetch (by decide +kernel)⟩
theorem witness_TimerWritesAreTickedInTheSameStep_sound :
    let s := placed 0xF118 (start [(1, 1)])
    s.halted = none ∧ s.Fetches (encode (.ldStVx 1)) := ⟨rfl, fetches_of_fetch (by decide +kernel)⟩

theorem witness_KeyWaitBlocksOrLoadsAPressedKey_none : ∀ k, State.reset.key k = false := by decide
theorem witness_KeyWaitBlocksOrLoadsAPressedKey_some : ∃ k, ((State.reset.setKey 15 true).setKey 0 true).key k = true :=
  ⟨15, by decide⟩
theorem witness_EveryPressedKeyIsSomeChoice : ((State.reset.setKey 15 true).setKey 0 true).key 15 = true := by decide

theorem witness_BlockedKeyWaitOnlyTicks :
    let s := { placed 0xF20A with st := 1 }
    s.halted = none ∧ s.Fetches (encode (.ldVxK 2)) ∧ ∀ k, s.key k = false :=
  ⟨rfl, fetches_of_fetch (by decide +kernel), by decide⟩

theorem witness_EveryInstructionWritesOnlyItsRow_ok :
    exec (.ldImm 0 5) State.reset = .next ((State.reset.setReg 0 5).advance 2) := rfl
theorem witness_EveryInstructionWritesOnlyItsRow_err :
    exec .ret State.reset = .next (State.reset.haltedWith .stackUnderflow (some 0x00EE)) :=
  eq_next_of_nextOf (by decide +kernel)

theorem witness_OnlyFlagWritersAndDestinationsChangeVF :
    let s := placed 0x8014 (start [(0, 0xFF), (1, 1)])
    step s = .next (stepped s) ∧ (stepped s).reg 15 ≠ s.reg 15 :=
  ⟨step_stepped (by decide +kernel), by decide +kernel⟩

theorem witness_OnlyCallAndReturnUseTheStack_call :
    let s := placed 0x2210
    step s = .next (stepped s) ∧ (stepped s).sp ≠ s.sp ∧
      (stepped s).stack[(0 : Fin 16).val] ≠ s.stack[(0 : Fin 16).val] :=
  ⟨step_stepped (by decide +kernel), by decide +kernel, by decide +kernel⟩
theorem witness_OnlyCallAndReturnUseTheStack_ret :
    let s := { placed 0x00EE with sp := 16 }
    step s = .next (stepped s) ∧ (stepped s).sp ≠ s.sp :=
  ⟨step_stepped (by decide +kernel), by decide +kernel⟩

theorem witness_DevicesChangeOnlyAsListed :
    let s := placed 0x00E0 { State.reset with fb := Display.setPixel State.reset.fb 5 5 true }
    step s = .next (stepped s) ∧ (stepped s).pixel 5 5 ≠ s.pixel 5 5 ∧ s.dirty = true :=
  ⟨step_stepped (by decide +kernel), by decide +kernel⟩

theorem witness_DevicesChangeOnlyAsListed_dirty :
    let s := placed 0xD010 { State.reset with dirty := false, cfg := { Config.default with zeroHeightDraw := .empty } }
    step s = .next (stepped s) ∧ (stepped s).dirty ≠ s.dirty :=
  ⟨step_stepped (by decide +kernel), by decide +kernel⟩

theorem witness_OnlyStoresChangeMemory :
    let s := placed 0xF033 (start [(0, 0xFF)] (i := 0x300))
    step s = .next (stepped s) ∧ (stepped s).byteAt 0x300 ≠ s.byteAt 0x300 :=
  ⟨step_stepped (by decide +kernel), by decide +kernel⟩

theorem witness_TimersCountDownOncePerSuccessfulStep :
    let s := { placed 0x6005 with st := 1 }
    cycle s = .next (stepped s, .ok true) := eq_next_of_nextOf (by decide +kernel)

theorem witness_StoredCodeIsFetchedNext :
    let s := placed 0xF155 { start [(0, 0x61), (1, 0x07)] with i := 0x202 }
    s.halted = none ∧ s.Fetches (encode (.ldMemVx 1)) ∧ 1 ≤ (1 : RegIdx).val ∧ s.i.toNat = s.pc.toNat + 2 ∧
      ∀ k, k ≤ (1 : RegIdx).val → Writable s.cfg (s.i.toNat + k) := by
  refine ⟨rfl, fetches_of_fetch (by decide +kernel), by decide, by decide, fun k hk => ?_⟩
  have h1 : (1 : RegIdx).val = 1 := rfl
  exact writable_of_range (show 0x200 ≤ 0x202 + k by omega) (show 0x202 + k < 0x1000 by omega)

theorem witness_SelfJumpKeepsTicking :
    let s := placed 0x1200
    s.halted = none ∧ s.Fetches (encode (.jp 0x200)) ∧ (0x200 : BitVec 12).toNat = s.pc.toNat :=
  ⟨rfl, fetches_of_fetch (by decide +kernel), by decide⟩

/-- The invariant holds of a halted machine with bytes listed in memory, and a step from it answers. -/
theorem witness_EveryStepKeepsTheInvariant : stopped.Inv ∧ step stopped = .next stopped := by
  refine ⟨⟨by decide, by decide, by decide, fun r hr => ?_⟩, eq_next_of_nextOf (by decide +kernel)⟩
  have h : stopped.halted = some stoppedRecord := by decide
  obtain rfl : stoppedRecord = r := Option.some.inj (h.symm.trans hr)
  exact ⟨rfl, by decide⟩
theorem witness_EveryRunKeepsTheInvariant : stopped.Inv ∧ [Move.step, .host .init, .step] ≠ [] :=
  ⟨witness_EveryStepKeepsTheInvariant.1, by decide⟩

theorem witness_LowMemoryStaysIntact : State.reset.cfg.reservedWrite = .fault ∧ State.reset.LowMemoryIntact :=
  ⟨rfl, fun _ _ => rfl⟩

theorem witness_HaltedUntilInitialize :
    stopped.halted = some stoppedRecord ∧ Move.host .init ∉ [Move.step, .host (.load [0x60, 0x01]), .host .clearDirty] := by
  decide

theorem witness_MemoriesThatReadAlikeAreEqual :
    Memory.wf Config.defaultFont [(0x000, 0x11), (0xFFF, 0x22)] = true ∧
      ∀ a, Memory.read Config.defaultFont [(0x000, 0x11), (0xFFF, 0x22)] a =
        Memory.read Config.defaultFont (Memory.insert 0xFFF 0x22 [(0x000, 0x11)]) a := ⟨by decide, fun _ => rfl⟩

theorem witness_OtherInstructionsIgnoreTheKeypad :
    (∀ x, Instr.cls ≠ .skp x ∧ Instr.cls ≠ .sknp x ∧ Instr.cls ≠ .ldVxK x) ∧
      exec .cls State.reset = .next (State.reset.jump 0x202) := by
  refine ⟨fun x => ⟨?_, ?_, ?_⟩, eq_next_of_nextOf (by decide +kernel)⟩ <;> exact Instr.noConfusion

theorem witness_NoInstructionReadsTheSoundTimer :
    exec (.ldVxDt 3) State.reset = .next ((State.reset.setReg 3 0).advance 2) := rfl

/-- One entry in use, and stale entries above it that differ. -/
theorem witness_EntriesAboveTheTopAreNotObservable :
    let s := { State.reset with sp := 1 }
    let stack := s.stack.set 5 0x345
    (∀ j : Fin 16, j.val < s.sp.val → stack[j.val] = s.stack[j.val]) ∧ stack ≠ s.stack := by decide

end Sys2Proof.Tests
end

section
/-! SUPPORT. How `OnlyChanges` frames compose, and the frame of each state operation that RND and
FX0A are built from. -/

namespace Sys2Proof.Machine

/-! ### Frames compose -/

theorem Part.same_trans {s t u : State} {p : Part} (hst : Part.same s t p) (htu : Part.same t u p) :
    Part.same s u p := by
  cases p <;> exact Eq.trans htu hst

/-- One change after another writes what either of them writes. -/
theorem State.OnlyChanges.trans {s t u : State} {ps qs : List Part} (hst : s.OnlyChanges t ps)
    (htu : t.OnlyChanges u qs) : s.OnlyChanges u (ps ++ qs) := fun p hp =>
  Part.same_trans (hst p fun h => hp (List.mem_append_left qs h)) (htu p fun h => hp (List.mem_append_right ps h))

/-- A frame may list more parts, in any order. -/
theorem State.OnlyChanges.mono {s t : State} {ps qs : List Part} (h : s.OnlyChanges t ps) (hsub : ps ⊆ qs) :
    s.OnlyChanges t qs := fun p hp => h p fun hps => hp (hsub hps)

/-! ### The frame of each operation -/

theorem State.setReg_onlyChanges (s : State) (k : RegIdx) (b : Byte) : s.OnlyChanges (s.setReg k b) [.reg k] := by
  intro p hp
  cases p with
  | reg l => exact s.reg_setReg_ne b fun h => hp (h ▸ List.mem_singleton_self _)
  | _ => rfl

theorem State.advance_onlyChanges (s : State) (a : Addr) : s.OnlyChanges (s.advance a) [.pc] := by
  intro p hp
  cases p with
  | pc => exact absurd (List.mem_singleton_self _) hp
  | _ => rfl

theorem State.drawn_onlyChanges (s : State) : s.OnlyChanges s.drawn [.draws] := by
  intro p hp
  cases p with
  | draws => exact absurd (List.mem_singleton_self _) hp
  | _ => rfl

/-- What RND and an unblocked FX0A do to the state: one register, one draw, and pc. -/
theorem State.setReg_advance_drawn_onlyChanges (s : State) (x : RegIdx) (b : Byte) (a : Addr) :
    s.OnlyChanges ((s.setReg x b).advance a).drawn [.reg x, .draws, .pc] :=
  (((s.setReg_onlyChanges x b).trans (State.advance_onlyChanges _ a)).trans (State.drawn_onlyChanges _)).mono
    (by simp)

end Sys2Proof.Machine
end

section
/-! The two instructions that take a draw, RND and FX0A (R211, R303). -/

namespace Sys2Proof.Machine

/-! ### RND -/

theorem exec_rnd (x : RegIdx) (nn : Byte) (s : State) :
    exec (.rnd x nn) s = .next ((s.setReg x (Config.rnd s.draws &&& nn)).advance 2).drawn := rfl

theorem encode_rnd_toNat (x : RegIdx) (nn : Byte) :
    (encode (.rnd x nn)).toNat = 0xC000 + x.val * 256 + nn.toNat := by
  simp [encode, layoutXNN_toNat, idxNibble_toNat]

/-- Settles O26: RND is a register write, an advance and a draw taken, and the register's bits are the bits of the masked
draw, whichever byte that is. -/
theorem randomByteIsMaskedAndFresh : Obligations.RandomByteIsMaskedAndFresh := by
  intro x nn s
  refine ⟨encode_rnd_toNat x nn, _, exec_rnd x nn s, fun b => ?masked, rfl, rfl,
    s.setReg_advance_drawn_onlyChanges x _ 2⟩
  case masked => simp

/-! ### FX0A -/

theorem exec_ldVxK (x : RegIdx) (s : State) : exec (.ldVxK x) s = .next (keyWaitWith s.nextKeyChoice x s) := rfl

theorem encode_ldVxK_toNat (x : RegIdx) : (encode (.ldVxK x)).toNat = 0xF00A + x.val * 256 := by
  simp [encode, layoutXNN_toNat, idxNibble_toNat]
  omega

theorem keyWaitWith_of_chosen {choice : Nat} {s : State} {k : KeyIdx} (x : RegIdx)
    (h : chooseKey choice s.pressedKeys = some k) :
    keyWaitWith choice x s = ((s.setReg x (BitVec.ofNat 8 k.val)).advance 2).drawn := by
  simp [keyWaitWith, h]

/-- R303 with no key pressed: FX0A blocks. -/
theorem keyWaitWith_of_no_key {s : State} (choice : Nat) (x : RegIdx) (h : ∀ k, s.key k = false) :
    keyWaitWith choice x s = s := by
  rcases keyWait_cases s choice with ⟨-, hnone⟩ | ⟨k, hk, -⟩
  · simp [keyWaitWith, hnone]
  · simp [h k] at hk

/-- R303 with a key pressed: whatever the draw, FX0A loads some pressed key. -/
theorem keyWaitWith_of_key_pressed {s : State} (choice : Nat) (x : RegIdx) (h : ∃ k, s.key k = true) :
    ∃ k, s.key k = true ∧
      keyWaitWith choice x s = ((s.setReg x (BitVec.ofNat 8 k.val)).advance 2).drawn := by
  rcases keyWait_cases s choice with ⟨hempty, -⟩ | ⟨k, hk, hchosen⟩
  · obtain ⟨k, hk⟩ := h
    have hmem : k ∈ s.pressedKeys := (s.mem_pressedKeys k).2 hk
    simp [hempty] at hmem
  · exact ⟨k, hk, keyWaitWith_of_chosen x hchosen⟩

/-- A key index fits in a register. -/
theorem keyIdx_byte_toNat (k : KeyIdx) : (BitVec.ofNat 8 k.val).toNat = k.val := by
  simp only [BitVec.toNat_ofNat]
  omega

/-- Settles O37, by the two cases of R303: no key is pressed and FX0A leaves the state as it was, or some pressed key is
the one loaded, whichever the draw names. -/
theorem keyWaitBlocksOrLoadsAPressedKey : Obligations.KeyWaitBlocksOrLoadsAPressedKey := by
  intro x s
  refine ⟨encode_ldVxK_toNat x, fun hnone => ?blocks, fun hpressed => ?loads⟩
  case blocks => rw [exec_ldVxK, keyWaitWith_of_no_key _ x hnone]
  case loads =>
    obtain ⟨k, hk, hload⟩ := keyWaitWith_of_key_pressed s.nextKeyChoice x hpressed
    refine ⟨_, k, (exec_ldVxK x s).trans (congrArg _ hload), hk, ?index, rfl, rfl,
      s.setReg_advance_drawn_onlyChanges x _ 2⟩
    case index =>
      calc (((s.setReg x (BitVec.ofNat 8 k.val)).advance 2).drawn.reg x).toNat
          = (BitVec.ofNat 8 k.val).toNat := by simp
        _ = k.val := keyIdx_byte_toNat k

end Sys2Proof.Machine
end

section
/-! SUPPORT. Each decoded opcode is the encoding of its instruction (R95 against R92), one lemma per group of the decoder. -/

namespace Sys2Proof

/-! ### A layout with the fields that a group fixes -/

theorem layoutNNN_of_fieldT {op : Opcode} {t : BitVec 4} (ht : fieldT op = t) : layoutNNN t (fieldNNN op) = op :=
  ht ▸ layoutNNN_fields op

theorem layoutXNN_of_fieldT {op : Opcode} {t : BitVec 4} (ht : fieldT op = t) :
    layoutXNN t (idxNibble (fieldX op)) (fieldNN op) = op :=
  ht ▸ layoutXNN_fields op

theorem layoutXNN_of_fieldT_fieldNN {op : Opcode} {t : BitVec 4} {nn : Byte} (ht : fieldT op = t)
    (hn : fieldNN op = nn) : layoutXNN t (idxNibble (fieldX op)) nn = op :=
  hn ▸ layoutXNN_of_fieldT ht

theorem layoutXYN_of_fieldT_fieldN {op : Opcode} {t n : BitVec 4} (ht : fieldT op = t) (hn : fieldN op = n) :
    layoutXYN t (idxNibble (fieldX op)) (idxNibble (fieldY op)) n = op :=
  ht ▸ hn ▸ layoutXYN_fields op

/-! ### The groups -/

theorem encode_of_decodeZero {op : Opcode} {i : Instr} (h : decodeZero op = .ok i) : encode i = op := by
  unfold decodeZero at h
  split at h
  case isTrue hop => cases h; rw [hop]; decide
  case isFalse =>
    split at h
    case isTrue hop => cases h; rw [hop]; decide
    case isFalse => cases h

theorem encode_of_decodeAlu {op : Opcode} {i : Instr} (ht : fieldT op = 0x8#4)
    (h : decodeAlu op (fieldX op) (fieldY op) (fieldN op) = .ok i) : encode i = op := by
  unfold decodeAlu at h
  split at h <;> cases h <;> exact layoutXYN_of_fieldT_fieldN ht ‹_›

theorem encode_of_decodeKey {op : Opcode} {i : Instr} (ht : fieldT op = 0xE#4)
    (h : decodeKey op (fieldX op) (fieldNN op) = .ok i) : encode i = op := by
  unfold decodeKey at h
  split at h <;> cases h <;> exact layoutXNN_of_fieldT_fieldNN ht ‹_›

theorem encode_of_decodeMisc {op : Opcode} {i : Instr} (ht : fieldT op = 0xF#4)
    (h : decodeMisc op (fieldX op) (fieldNN op) = .ok i) : encode i = op := by
  unfold decodeMisc at h
  split at h <;> cases h <;> exact layoutXNN_of_fieldT_fieldNN ht ‹_›

theorem encode_of_decodeDraw {zh : ZeroHeightDraw} {op : Opcode} {i : Instr} (ht : fieldT op = 0xD#4)
    (h : decodeDraw zh op = .ok i) : encode i = op := by
  unfold decodeDraw at h
  split at h
  case isTrue => cases h
  case isFalse =>
    cases h
    exact layoutXYN_of_fieldT_fieldN ht (idxNibble_nibbleIdx _).symm

/-- An opcode that decodes to an instruction is the encoding of it. -/
theorem encode_of_decode {zh : ZeroHeightDraw} {op : Opcode} {i : Instr} (h : decode zh op = .ok i) :
    encode i = op := by
  unfold decode at h
  split at h
  case h_1 => exact encode_of_decodeZero h
  case h_6 ht | h_10 ht =>
    split at h
    case isTrue hn => cases h; exact layoutXYN_of_fieldT_fieldN ht hn
    case isFalse => cases h
  case h_9 ht => exact encode_of_decodeAlu ht h
  case h_14 ht => exact encode_of_decodeDraw ht h
  case h_15 ht => exact encode_of_decodeKey ht h
  case h_16 ht => exact encode_of_decodeMisc ht h
  case h_2 ht | h_3 ht | h_11 ht | h_12 ht => cases h; exact layoutNNN_of_fieldT ht
  case h_4 ht | h_5 ht | h_7 ht | h_8 ht | h_13 ht => cases h; exact layoutXNN_of_fieldT ht
  case h_17 => cases h

end Sys2Proof
end

section
/-! Two canonical memories that read alike are the same list (log entry 9). -/

namespace Sys2Proof.Machine

/-- The canonical form of a list with a first entry. -/
theorem Memory.wf_cons {font : Font} {k : Nat} {b : Byte} {m : Memory} (h : Memory.wf font ((k, b) :: m) = true) :
    (∀ c ∈ m, k < c.1) ∧ b ≠ Memory.unlisted font k ∧ Memory.wf font m = true := by
  simp only [Memory.wf_iff, List.map_cons, List.pairwise_cons, List.forall_mem_cons] at h ⊢
  obtain ⟨⟨habove, hsorted⟩, ⟨-, hlisted⟩, hrest⟩ := h
  exact ⟨fun c hc => habove _ (List.mem_map_of_mem hc), hlisted, hsorted, hrest⟩

theorem Memory.read_of_below {font : Font} {m : Memory} {a : Nat} (h : ∀ c ∈ m, a < c.1) :
    Memory.read font m a = Memory.unlisted font a := by
  induction m with
  | nil => rfl
  | cons c m ih =>
    obtain ⟨hc, hm⟩ := List.forall_mem_cons.1 h
    simp only [Memory.read, if_neg (Nat.ne_of_lt hc), ih hm]

/-- A canonical list with first address `k` reads at `k` as no list does whose addresses all lie above `k`. -/
theorem Memory.not_above_head {font : Font} {k : Nat} {b : Byte} {m m' : Memory}
    (hm : Memory.wf font ((k, b) :: m) = true)
    (hread : Memory.read font ((k, b) :: m) k = Memory.read font m' k) : ¬ ∀ c ∈ m', k < c.1 := by
  intro habove
  obtain ⟨-, hlisted, -⟩ := Memory.wf_cons hm
  rw [Memory.read_of_below habove] at hread
  exact hlisted (by simpa [Memory.read] using hread)

/-- The first addresses of two canonical lists that read alike are in order both ways, so equal. -/
theorem Memory.head_le {font : Font} {k k' : Nat} {b b' : Byte} {m m' : Memory}
    (hm : Memory.wf font ((k, b) :: m) = true) (hm' : Memory.wf font ((k', b') :: m') = true)
    (hread : Memory.read font ((k, b) :: m) k = Memory.read font ((k', b') :: m') k) : k' ≤ k := by
  by_contra hlt
  have hlt : k < k' := Nat.lt_of_not_le hlt
  obtain ⟨habove, -, -⟩ := Memory.wf_cons hm'
  exact Memory.not_above_head hm hread
    (List.forall_mem_cons.2 ⟨hlt, fun c hc => Nat.lt_trans hlt (habove c hc)⟩)

/-- Under a common first address above which all others lie, equal reads are equal reads of the rest. -/
theorem Memory.read_tail_eq {font : Font} {k : Nat} {b b' : Byte} {m m' : Memory} (habove : ∀ c ∈ m, k < c.1)
    (habove' : ∀ c ∈ m', k < c.1)
    (hread : ∀ a, Memory.read font ((k, b) :: m) a = Memory.read font ((k, b') :: m') a) (a : Nat) :
    Memory.read font m a = Memory.read font m' a := by
  by_cases hak : a = k
  · rw [hak, Memory.read_of_below habove, Memory.read_of_below habove']
  · simpa [Memory.read, hak] using hread a

/-- Settles O53, by induction on the two lists: their first entries agree, and their rests read alike. -/
theorem memoriesThatReadAlikeAreEqual : Obligations.MemoriesThatReadAlikeAreEqual := by
  intro font m m' hm hm' hread
  induction m generalizing m' with
  | nil =>
    cases m' with
    | nil => rfl
    | cons c' m' => exact absurd (by simp) (Memory.not_above_head hm' (hread c'.1).symm)
  | cons c m ih =>
    cases m' with
    | nil => exact absurd (by simp) (Memory.not_above_head hm (hread c.1))
    | cons c' m' =>
      obtain ⟨k, b⟩ := c
      obtain ⟨k', b'⟩ := c'
      obtain rfl : k = k' :=
        Nat.le_antisymm (Memory.head_le hm' hm (hread k').symm) (Memory.head_le hm hm' (hread k))
      obtain ⟨habove, -, hrest⟩ := Memory.wf_cons hm
      obtain ⟨habove', -, hrest'⟩ := Memory.wf_cons hm'
      have hb : b = b' := by simpa [Memory.read] using hread k
      rw [hb, ih m' hrest hrest' (Memory.read_tail_eq habove habove' hread)]

end Sys2Proof.Machine
end

section
/-! SUPPORT. The frames of the remaining state operations, and how a list of written parts fits a row of R38. -/

namespace Sys2Proof.Machine

/-- A list of written parts fits any set that holds all of them. -/
theorem State.OnlyChanges.unchangedOutside {s t : State} {ps : List Part} {written : Part → Prop}
    (h : s.OnlyChanges t ps) (hw : ∀ p ∈ ps, written p) : s.UnchangedOutside t written :=
  fun p hp => h p fun hps => hp (hw p hps)

theorem State.onlyChanges_refl (s : State) (ps : List Part) : s.OnlyChanges s ps := by
  intro p _
  cases p <;> rfl

theorem State.jump_onlyChanges (s : State) (a : Addr) : s.OnlyChanges (s.jump a) [.pc] := by
  intro p hp
  cases p with
  | pc => exact absurd (List.mem_singleton_self _) hp
  | _ => rfl

theorem State.skipIf_onlyChanges (s : State) (c : Bool) : s.OnlyChanges (s.skipIf c) [.pc] :=
  s.advance_onlyChanges _

theorem State.setIndex_onlyChanges (s : State) (a : Addr) : s.OnlyChanges (s.setIndex a) [.index] := by
  intro p hp
  cases p with
  | index => exact absurd (List.mem_singleton_self _) hp
  | _ => rfl

theorem State.withDt_onlyChanges (s : State) (b : Byte) : s.OnlyChanges { s with dt := b } [.dt] := by
  intro p hp
  cases p with
  | dt => exact absurd (List.mem_singleton_self _) hp
  | _ => rfl

theorem State.withSt_onlyChanges (s : State) (b : Byte) : s.OnlyChanges { s with st := b } [.st] := by
  intro p hp
  cases p with
  | st => exact absurd (List.mem_singleton_self _) hp
  | _ => rfl

theorem State.withSp_onlyChanges (s : State) (k : Fin 17) : s.OnlyChanges { s with sp := k } [.sp] := by
  intro p hp
  cases p with
  | sp => exact absurd (List.mem_singleton_self _) hp
  | _ => rfl

theorem State.withHalted_onlyChanges (s : State) (r : Option ErrorRecord) :
    s.OnlyChanges { s with halted := r } [.halted] := by
  intro p hp
  cases p with
  | halted => exact absurd (List.mem_singleton_self _) hp
  | _ => rfl

theorem State.withStackEntry_onlyChanges (s : State) (j : Fin 16) (a : Addr) :
    s.OnlyChanges { s with stack := s.stack.set j.val a j.isLt } [.stackEntry j] := by
  intro p hp
  cases p with
  | stackEntry l =>
    have hne : j.val ≠ l.val := fun h => hp (by simp [Fin.ext h])
    exact Vector.getElem_set_ne j.isLt l.isLt hne
  | _ => rfl

/-! ### Sequences of operations -/

/-- A register write and an advance, the shape of most of the 8-group. -/
theorem State.setReg_advance_onlyChanges (s : State) (x : RegIdx) (b : Byte) :
    s.OnlyChanges ((s.setReg x b).advance 2) [.reg x, .pc] :=
  (s.setReg_onlyChanges x b).trans (State.advance_onlyChanges _ 2)

theorem State.setRegAndFlag_advance_onlyChanges (s : State) (x : RegIdx) (b flag : Byte) :
    s.OnlyChanges ((s.setRegAndFlag x b flag).advance 2) [.reg x, .reg 15, .pc] :=
  ((s.setReg_onlyChanges x b).trans (State.setReg_onlyChanges _ flagReg flag)).trans (State.advance_onlyChanges _ 2)

theorem State.setIndex_advance_onlyChanges (s : State) (a : Addr) :
    s.OnlyChanges ((s.setIndex a).advance 2) [.index, .pc] :=
  (s.setIndex_onlyChanges a).trans (State.advance_onlyChanges _ 2)

/-! ### Frames with many parts: the display, memory and the register file -/

/-- A new display, dirty set: nothing else. -/
theorem State.withDisplay_unchangedOutside (s : State) (fb : Display) :
    s.UnchangedOutside { s with fb := fb, dirty := true } fun p => (∃ r c, p = .pixel r c) ∨ p = .dirty := by
  intro p hp
  cases p with
  | pixel r c => exact absurd (.inl ⟨r, c, rfl⟩) hp
  | dirty => exact absurd (.inr rfl) hp
  | _ => rfl

/-- Consecutive bytes written to memory: those bytes and nothing else. -/
theorem State.withBytes_unchangedOutside (s : State) (a : Nat) (bytes : List Byte) :
    s.UnchangedOutside { s with mem := Memory.writeAll s.cfg.font s.mem a bytes }
      fun p => ∃ k, k < bytes.length ∧ p = .byte (a + k) := by
  intro p hp
  cases p with
  | byte b =>
    have hout : ¬ (a ≤ b ∧ b < a + bytes.length) := fun h =>
      hp ⟨b - a, by omega, by rw [Nat.add_sub_cancel' h.1]⟩
    exact (Memory.read_writeAll ..).trans (dif_neg hout)
  | _ => rfl

/-- Registers filled from V0 upward: those registers and nothing else. -/
theorem State.withLoadedRegs_unchangedOutside (s : State) (bytes : List Byte) :
    s.UnchangedOutside { s with v := loadRegs 0 bytes s.v }
      fun p => ∃ k : RegIdx, k.val < bytes.length ∧ p = .reg k := by
  intro p hp
  cases p with
  | reg l =>
    have hout : ¬ (0 ≤ l.val ∧ l.val < 0 + bytes.length) := fun h => hp ⟨l, by omega, rfl⟩
    exact (getElem_loadRegs bytes 0 s.v l.val l.isLt).trans (dif_neg hout)
  | _ => rfl

/-- One change after another, for any sets of parts. -/
theorem State.UnchangedOutside.trans {s t u : State} {w w' : Part → Prop} (hst : s.UnchangedOutside t w)
    (htu : t.UnchangedOutside u w') : s.UnchangedOutside u fun p => w p ∨ w' p := fun p hp =>
  Part.same_trans (hst p fun h => hp (.inl h)) (htu p fun h => hp (.inr h))

theorem State.UnchangedOutside.mono {s t : State} {w w' : Part → Prop} (h : s.UnchangedOutside t w)
    (hw : ∀ p, w p → w' p) : s.UnchangedOutside t w' := fun p hp => h p fun hwp => hp (hw p hwp)

/-- A part that changed was written. -/
theorem State.UnchangedOutside.written {s t : State} {w : Part → Prop} (h : s.UnchangedOutside t w) {p : Part}
    (hne : ¬ Part.same s t p) : w p := by
  by_contra hw
  exact hne (h p hw)

theorem State.tick_onlyChanges (s : State) : s.OnlyChanges s.tick [.dt, .st] := by
  intro p hp
  cases p with
  | dt => exact absurd (by simp) hp
  | st => exact absurd (by simp) hp
  | _ => rfl

/-- `incI` leaves I alone under `LOADSTORE_INCREMENT_I = none` (R254). -/
theorem State.setIndex_incIndex_unchangedOutside (s : State) (x : RegIdx) :
    s.UnchangedOutside (s.setIndex (incIndex s.cfg.loadStoreIncrement s.i x))
      fun p => p = .index ∧ s.cfg.loadStoreIncrement ≠ .none := by
  by_cases hnone : s.cfg.loadStoreIncrement = .none
  · rw [hnone]
    exact (s.onlyChanges_refl []).unchangedOutside (by simp)
  · exact (s.setIndex_onlyChanges _).unchangedOutside (by simp [hnone])

end Sys2Proof.Machine
end

section
/-! SUPPORT. What each instruction that can fail or block does: it halts the machine with a record that fits the error,
or leaves it as it was, or leaves the state that its rule builds. The other instructions always do the one thing that `exec`
says of them. -/

namespace Sys2Proof.Machine

/-- An instruction ended in an error (R138), recorded with information that fits it (R330). -/
def Raises (i : Instr) (s t : State) : Prop :=
  ∃ e, ErrorRecord.Legal { error := e, op := some (encode i), pc := s.pc } ∧ t = s.raise e (some (encode i))

/-! ### RET and CALL -/

theorem exec_ret_of_empty {s : State} (h : s.sp.val = 0) :
    exec .ret s = .next (s.raise .stackUnderflow (some (encode .ret))) := by
  simp [exec, execRet, pop_error h]

theorem exec_ret_of_entry {s : State} (k : Nat) (hk : k < 16) (h : s.sp.val = k + 1) :
    exec .ret s = .next (({ s with sp := ⟨k, Nat.lt_succ_of_lt hk⟩ } : State).jump (s.stack[k] + 2)) := by
  simp [exec, execRet, pop_ok k hk h]

theorem exec_call_of_full (nnn : BitVec 12) {s : State} (h : ¬ s.sp.val < 16) :
    exec (.call nnn) s = .next (s.raise .stackOverflow (some (encode (.call nnn)))) := by
  simp [exec, execCall, push_error s.pc h]

theorem exec_call_of_room (nnn : BitVec 12) {s : State} (h : s.sp.val < 16) :
    exec (.call nnn) s =
      .next (({ s with stack := s.stack.set s.sp.val s.pc h, sp := ⟨s.sp.val + 1, Nat.succ_lt_succ h⟩ } :
        State).jump (literalAddr nnn)) := by
  simp [exec, execCall, push_ok s.pc h]

theorem exec_ret_cases {s t : State} (h : exec .ret s = .next t) :
    Raises .ret s t ∨ ∃ k, ∃ hk : k < 16, s.sp.val = k + 1 ∧
      t = ({ s with sp := ⟨k, Nat.lt_succ_of_lt hk⟩ } : State).jump (s.stack[k] + 2) := by
  cases hsp : s.sp.val with
  | zero =>
    rw [exec_ret_of_empty hsp] at h
    cases h
    exact .inl ⟨.stackUnderflow, rfl, rfl⟩
  | succ k =>
    have hk : k < 16 := by have := s.sp.isLt; omega
    rw [exec_ret_of_entry k hk hsp] at h
    cases h
    exact .inr ⟨k, hk, rfl, rfl⟩

theorem exec_call_cases {nnn : BitVec 12} {s t : State} (h : exec (.call nnn) s = .next t) :
    Raises (.call nnn) s t ∨ ∃ hroom : s.sp.val < 16,
      t = ({ s with stack := s.stack.set s.sp.val s.pc hroom, sp := ⟨s.sp.val + 1, Nat.succ_lt_succ hroom⟩ } :
        State).jump (literalAddr nnn) := by
  by_cases hroom : s.sp.val < 16
  · rw [exec_call_of_room nnn hroom] at h
    cases h
    exact .inr ⟨hroom, rfl⟩
  · rw [exec_call_of_full nnn hroom] at h
    cases h
    exact .inl ⟨.stackOverflow, ⟨nnn, rfl⟩, rfl⟩

/-! ### Instructions that end in `attempt` -/

theorem exec_skp (x : RegIdx) (s : State) :
    exec (.skp x) s = attempt (.skp x) s ((keyIndex s.cfg.keyIndex (s.reg x)).map fun k => s.skipIf (s.key k)) := by
  simp only [exec, execSkp]
  cases keyIndex s.cfg.keyIndex (s.reg x) <;> rfl

theorem exec_sknp (x : RegIdx) (s : State) :
    exec (.sknp x) s = attempt (.sknp x) s ((keyIndex s.cfg.keyIndex (s.reg x)).map fun k => s.skipIf (!s.key k)) := by
  simp only [exec, execSknp]
  cases keyIndex s.cfg.keyIndex (s.reg x) <;> rfl

theorem exec_drw (x y : RegIdx) (n : Fin 16) (s : State) :
    exec (.drw x y n) s =
      attempt (.drw x y n) s ((readBytes s s.indexBase n.val).map fun rows => drawSprite x y rows s) := by
  simp only [exec, execDrw]
  cases readBytes s s.indexBase n.val <;> rfl

theorem exec_ldVxMem (x : RegIdx) (s : State) :
    exec (.ldVxMem x) s = attempt (.ldVxMem x) s ((readBytes s s.indexBase (x.val + 1)).map fun bytes =>
      (({ s with v := loadRegs 0 bytes s.v } : State).setIndex
        (incIndex s.cfg.loadStoreIncrement s.i x)).advance 2) := by
  simp only [exec, execLdVxMem]
  cases readBytes s s.indexBase (x.val + 1) <;> rfl

theorem exec_ldBVx (x : RegIdx) (s : State) :
    exec (.ldBVx x) s = attempt (.ldBVx x) s ((writeBytes s s.indexBase (bcdDigits (s.reg x))).map fun t =>
      t.advance 2) := by
  simp only [exec, execLdBVx]
  cases writeBytes s s.indexBase (bcdDigits (s.reg x)) <;> rfl

theorem exec_ldMemVx (x : RegIdx) (s : State) :
    exec (.ldMemVx x) s = attempt (.ldMemVx x) s ((writeBytes s s.indexBase (s.regsUpTo x)).map fun t =>
      (t.setIndex (incIndex s.cfg.loadStoreIncrement s.i x)).advance 2) := by
  simp only [exec, execLdMemVx]
  cases writeBytes s s.indexBase (s.regsUpTo x) <;> rfl

/-- An instruction that can fail raised the error of its operand or transfer, or committed what it built from it. -/
theorem attempt_map_cases {α : Type} {i : Instr} {s t : State} {r : Except StepError α} {build : α → State}
    (h : attempt i s (r.map build) = .next t) :
    (∃ e, r = .error e ∧ t = s.raise e (some (encode i))) ∨ ∃ a, r = .ok a ∧ t = build a := by
  cases r with
  | error e => cases h; exact .inl ⟨e, rfl, rfl⟩
  | ok a => cases h; exact .inr ⟨a, rfl, rfl⟩

/-! ### What the errors and results of operands and transfers are -/

/-- Only a register value above 0xF selects no key (R306, R337). -/
theorem keyIndex_error_legal {policy : KeyIndexPolicy} {a : Byte} {e : StepError}
    (h : keyIndex policy a = .error e) (op : Opcode) (pc : Addr) :
    ErrorRecord.Legal { error := e, op := some op, pc := pc } := by
  by_cases ha : a.toNat < 16
  · rw [keyIndex_ok ha] at h
    cases h
  · cases policy with
    | fault =>
      rw [keyIndex_fault ha] at h
      cases h
      exact ⟨by omega, by simp⟩
    | lowNibble =>
      rw [keyIndex_lowNibble ha] at h
      cases h

/-- A read transfer fails only at an address outside memory (R335). -/
theorem readBytes_error_legal {s : State} {a n : Nat} {e : StepError} (h : readBytes s a n = .error e)
    (op : Opcode) (pc : Addr) : ErrorRecord.Legal { error := e, op := some op, pc := pc } := by
  rcases readBytes_cases s n a with ⟨-, hok⟩ | ⟨-, hok⟩ | ⟨k, -, -, hout, herr⟩
  · cases hok.symm.trans h
  · cases hok.symm.trans h
  · cases herr.symm.trans h
    exact hout

theorem readBytes_length_of_ok {s : State} {a n : Nat} {bytes : List Byte} (h : readBytes s a n = .ok bytes) :
    bytes.length = n := by
  rcases readBytes_cases s n a with ⟨-, hok⟩ | ⟨hn, hok⟩ | ⟨k, -, -, -, herr⟩
  · cases hok.symm.trans h
    simp
  · cases hok.symm.trans h
    exact hn.symm
  · cases herr.symm.trans h

/-- A write transfer fails only at an address outside memory or in the reserved region (R335, R336). -/
theorem writeBytes_error_legal {s : State} {a : Nat} {bytes : List Byte} {e : StepError}
    (h : writeBytes s a bytes = .error e) (op : Opcode) (pc : Addr) :
    ErrorRecord.Legal { error := e, op := some op, pc := pc } := by
  rcases writeBytes_cases bytes s a with ⟨-, hok⟩ | ⟨k, e', -, -, he, herr⟩
  · cases hok.symm.trans h
  · cases herr.symm.trans h
    rcases (storeError_some_iff s.cfg (a + k) e).1 he with ⟨hout, rfl⟩ | ⟨hlow, -, rfl⟩
    · exact hout
    · exact ⟨hlow, by simp⟩

/-- A write transfer that succeeds lands whole, inside memory. -/
theorem writeBytes_of_ok {s t : State} {a : Nat} {bytes : List Byte} (h : writeBytes s a bytes = .ok t) :
    (∀ k, k < bytes.length → a + k < memorySize) ∧ t = { s with mem := Memory.writeAll s.cfg.font s.mem a bytes } := by
  rcases writeBytes_cases bytes s a with ⟨hfree, hok⟩ | ⟨k, e, -, -, -, herr⟩
  · cases hok.symm.trans h
    exact ⟨fun k hk => ((storeError_none_iff _ _).1 (hfree k hk)).1, rfl⟩
  · cases herr.symm.trans h

/-! ### The cases of each instruction that can fail -/

theorem exec_skp_cases {x : RegIdx} {s t : State} (h : exec (.skp x) s = .next t) :
    Raises (.skp x) s t ∨ ∃ c, t = s.skipIf c := by
  rw [exec_skp] at h
  rcases attempt_map_cases h with ⟨e, he, ht⟩ | ⟨k, -, ht⟩
  · exact .inl ⟨e, keyIndex_error_legal he _ _, ht⟩
  · exact .inr ⟨_, ht⟩

theorem exec_sknp_cases {x : RegIdx} {s t : State} (h : exec (.sknp x) s = .next t) :
    Raises (.sknp x) s t ∨ ∃ c, t = s.skipIf c := by
  rw [exec_sknp] at h
  rcases attempt_map_cases h with ⟨e, he, ht⟩ | ⟨k, -, ht⟩
  · exact .inl ⟨e, keyIndex_error_legal he _ _, ht⟩
  · exact .inr ⟨_, ht⟩

theorem exec_drw_cases {x y : RegIdx} {n : Fin 16} {s t : State} (h : exec (.drw x y n) s = .next t) :
    Raises (.drw x y n) s t ∨ ∃ rows, t = drawSprite x y rows s := by
  rw [exec_drw] at h
  rcases attempt_map_cases h with ⟨e, he, ht⟩ | ⟨rows, -, ht⟩
  · exact .inl ⟨e, readBytes_error_legal he _ _, ht⟩
  · exact .inr ⟨rows, ht⟩

theorem exec_ldVxMem_cases {x : RegIdx} {s t : State} (h : exec (.ldVxMem x) s = .next t) :
    Raises (.ldVxMem x) s t ∨ ∃ bytes, bytes.length = x.val + 1 ∧
      t = (({ s with v := loadRegs 0 bytes s.v } : State).setIndex
        (incIndex s.cfg.loadStoreIncrement s.i x)).advance 2 := by
  rw [exec_ldVxMem] at h
  rcases attempt_map_cases h with ⟨e, he, ht⟩ | ⟨bytes, hbytes, ht⟩
  · exact .inl ⟨e, readBytes_error_legal he _ _, ht⟩
  · exact .inr ⟨bytes, readBytes_length_of_ok hbytes, ht⟩

theorem exec_ldBVx_cases {x : RegIdx} {s t : State} (h : exec (.ldBVx x) s = .next t) :
    Raises (.ldBVx x) s t ∨ ((∀ k, k < (bcdDigits (s.reg x)).length → s.i.toNat + k < memorySize) ∧
      t = ({ s with mem := Memory.writeAll s.cfg.font s.mem s.i.toNat (bcdDigits (s.reg x)) } : State).advance 2) := by
  rw [exec_ldBVx] at h
  rcases attempt_map_cases h with ⟨e, he, ht⟩ | ⟨u, hu, ht⟩
  · exact .inl ⟨e, writeBytes_error_legal he _ _, ht⟩
  · obtain ⟨hin, rfl⟩ := writeBytes_of_ok hu
    exact .inr ⟨hin, ht⟩

theorem exec_ldMemVx_cases {x : RegIdx} {s t : State} (h : exec (.ldMemVx x) s = .next t) :
    Raises (.ldMemVx x) s t ∨ ((∀ k, k < (s.regsUpTo x).length → s.i.toNat + k < memorySize) ∧
      t = (({ s with mem := Memory.writeAll s.cfg.font s.mem s.i.toNat (s.regsUpTo x) } : State).setIndex
        (incIndex s.cfg.loadStoreIncrement s.i x)).advance 2) := by
  rw [exec_ldMemVx] at h
  rcases attempt_map_cases h with ⟨e, he, ht⟩ | ⟨u, hu, ht⟩
  · exact .inl ⟨e, writeBytes_error_legal he _ _, ht⟩
  · obtain ⟨hin, rfl⟩ := writeBytes_of_ok hu
    exact .inr ⟨hin, ht⟩

/-- FX0A cannot fail: it blocks, or loads a pressed key (R303). -/
theorem exec_ldVxK_cases {x : RegIdx} {s t : State} (h : exec (.ldVxK x) s = .next t) :
    t = s ∨ ∃ k, s.key k = true ∧ t = ((s.setReg x (BitVec.ofNat 8 k.val)).advance 2).drawn := by
  rw [exec_ldVxK] at h
  cases h
  rcases keyWait_cases s s.nextKeyChoice with ⟨-, hnone⟩ | ⟨k, hk, hchosen⟩
  · exact .inl (by simp [keyWaitWith, hnone])
  · exact .inr ⟨k, hk, keyWaitWith_of_chosen x hchosen⟩

/-! ### Every instruction answers -/

theorem exec_answers (i : Instr) (s : State) : ∃ t, exec i s = .next t := by
  cases i
  case ret | call | drw | skp | sknp | ldBVx | ldMemVx | ldVxMem => exact attempt_answers _ _ _
  all_goals exact ⟨_, rfl⟩

end Sys2Proof.Machine
end

section
/-! The table of R38: what each instruction writes. -/

namespace Sys2Proof.Machine

/-! ### The row of each instruction that can fail -/

theorem exec_ret_row {s t : State} (h : exec .ret s = .next t) :
    Raises .ret s t ∨ s.UnchangedOutside t (rowWrites s .ret) := by
  rcases exec_ret_cases h with hraise | ⟨k, hk, -, rfl⟩
  · exact .inl hraise
  · exact .inr (((s.withSp_onlyChanges _).trans (State.jump_onlyChanges _ _)).unchangedOutside (by simp [rowWrites]))

theorem exec_call_row {nnn : BitVec 12} {s t : State} (h : exec (.call nnn) s = .next t) :
    Raises (.call nnn) s t ∨ s.UnchangedOutside t (rowWrites s (.call nnn)) := by
  rcases exec_call_cases h with hraise | ⟨hroom, rfl⟩
  · exact .inl hraise
  · exact .inr ((((s.withStackEntry_onlyChanges ⟨s.sp.val, hroom⟩ s.pc).trans (State.withSp_onlyChanges _ _)).trans
      (State.jump_onlyChanges _ _)).unchangedOutside (by simp [rowWrites]))

theorem drawSprite_unchangedOutside (x y : RegIdx) (rows : List Byte) (s : State) :
    s.UnchangedOutside (drawSprite x y rows s)
      fun p => ((∃ r c, p = .pixel r c) ∨ p = .dirty) ∨ p ∈ [Part.reg flagReg, .pc] :=
  (s.withDisplay_unchangedOutside _).trans (State.setReg_advance_onlyChanges _ flagReg _)

theorem exec_drw_row {x y : RegIdx} {n : Fin 16} {s t : State} (h : exec (.drw x y n) s = .next t) :
    Raises (.drw x y n) s t ∨ s.UnchangedOutside t (rowWrites s (.drw x y n)) := by
  rcases exec_drw_cases h with hraise | ⟨rows, rfl⟩
  · exact .inl hraise
  · refine .inr ((drawSprite_unchangedOutside x y rows s).mono ?_)
    rintro p ((hp | hp) | hp)
    · exact .inl hp
    · exact .inr (.inr (.inl hp))
    · rcases List.mem_pair.1 hp with hp | hp
      · exact .inr (.inl hp)
      · exact .inr (.inr (.inr hp))

theorem exec_skp_row {x : RegIdx} {s t : State} (h : exec (.skp x) s = .next t) :
    Raises (.skp x) s t ∨ s.UnchangedOutside t (rowWrites s (.skp x)) := by
  rcases exec_skp_cases h with hraise | ⟨c, rfl⟩
  · exact .inl hraise
  · exact .inr ((s.skipIf_onlyChanges c).unchangedOutside (by simp [rowWrites]))

theorem exec_sknp_row {x : RegIdx} {s t : State} (h : exec (.sknp x) s = .next t) :
    Raises (.sknp x) s t ∨ s.UnchangedOutside t (rowWrites s (.sknp x)) := by
  rcases exec_sknp_cases h with hraise | ⟨c, rfl⟩
  · exact .inl hraise
  · exact .inr ((s.skipIf_onlyChanges c).unchangedOutside (by simp [rowWrites]))

theorem exec_ldBVx_row {x : RegIdx} {s t : State} (h : exec (.ldBVx x) s = .next t) :
    Raises (.ldBVx x) s t ∨ s.UnchangedOutside t (rowWrites s (.ldBVx x)) := by
  rcases exec_ldBVx_cases h with hraise | ⟨-, rfl⟩
  · exact .inl hraise
  · refine .inr (((s.withBytes_unchangedOutside _ _).trans (State.advance_onlyChanges _ 2)).mono ?_)
    rintro p (⟨k, hk, hp⟩ | hp)
    · exact .inl ⟨k, hk, hp⟩
    · exact .inr (List.mem_singleton.1 hp)

theorem exec_ldMemVx_row {x : RegIdx} {s t : State} (h : exec (.ldMemVx x) s = .next t) :
    Raises (.ldMemVx x) s t ∨ s.UnchangedOutside t (rowWrites s (.ldMemVx x)) := by
  rcases exec_ldMemVx_cases h with hraise | ⟨-, rfl⟩
  · exact .inl hraise
  · refine .inr ((((s.withBytes_unchangedOutside _ _).trans
      (State.setIndex_incIndex_unchangedOutside _ x)).trans (State.advance_onlyChanges _ 2)).mono ?_)
    rintro p ((⟨k, hk, hp⟩ | hp) | hp)
    · rw [State.length_regsUpTo] at hk
      exact .inl ⟨k, by omega, hp⟩
    · exact .inr (.inl hp)
    · exact .inr (.inr (List.mem_singleton.1 hp))

theorem exec_ldVxMem_row {x : RegIdx} {s t : State} (h : exec (.ldVxMem x) s = .next t) :
    Raises (.ldVxMem x) s t ∨ s.UnchangedOutside t (rowWrites s (.ldVxMem x)) := by
  rcases exec_ldVxMem_cases h with hraise | ⟨bytes, hlen, rfl⟩
  · exact .inl hraise
  · refine .inr ((((s.withLoadedRegs_unchangedOutside bytes).trans
      (State.setIndex_incIndex_unchangedOutside _ x)).trans (State.advance_onlyChanges _ 2)).mono ?_)
    rintro p ((⟨k, hk, hp⟩ | hp) | hp)
    · exact .inl ⟨k, Fin.le_iff_val_le_val.2 (by omega), hp⟩
    · exact .inr (.inl hp)
    · exact .inr (.inr (List.mem_singleton.1 hp))

/-! ### The rows of the instructions that cannot fail -/

theorem exec_cls_row {s t : State} (h : exec .cls s = .next t) : s.UnchangedOutside t (rowWrites s .cls) := by
  cases h
  refine ((s.withDisplay_unchangedOutside blankDisplay).trans (State.advance_onlyChanges _ 2)).mono ?_
  rintro p ((hp | hp) | hp)
  · exact .inl hp
  · exact .inr (.inl hp)
  · exact .inr (.inr (List.mem_singleton.1 hp))

theorem exec_ldVxK_row {x : RegIdx} {s t : State} (h : exec (.ldVxK x) s = .next t) :
    s.UnchangedOutside t (rowWrites s (.ldVxK x)) := by
  rcases exec_ldVxK_cases h with rfl | ⟨k, hk, rfl⟩
  · exact (t.onlyChanges_refl []).unchangedOutside (by simp)
  · have hpressed : ∃ k, s.key k = true := ⟨k, hk⟩
    exact (s.setReg_advance_drawn_onlyChanges x _ 2).unchangedOutside (by simp [rowWrites, hpressed])

/-- R38: an instruction ends in an error, or writes only what its row lists. -/
theorem exec_row {i : Instr} {s t : State} (h : exec i s = .next t) :
    Raises i s t ∨ s.UnchangedOutside t (rowWrites s i) := by
  cases i
  case ret => exact exec_ret_row h
  case call => exact exec_call_row h
  case drw => exact exec_drw_row h
  case skp => exact exec_skp_row h
  case sknp => exact exec_sknp_row h
  case ldBVx => exact exec_ldBVx_row h
  case ldMemVx => exact exec_ldMemVx_row h
  case ldVxMem => exact exec_ldVxMem_row h
  case cls => exact .inr (exec_cls_row h)
  case ldVxK => exact .inr (exec_ldVxK_row h)
  case jp | jpV0 =>
    cases h
    exact .inr ((s.jump_onlyChanges _).unchangedOutside (by simp [rowWrites]))
  case seImm | sneImm | seReg | sneReg =>
    cases h
    exact .inr ((s.skipIf_onlyChanges _).unchangedOutside (by simp [rowWrites]))
  case ldImm | addImm | ldReg | orReg | andReg | xorReg | ldVxDt =>
    cases h
    exact .inr ((s.setReg_advance_onlyChanges _ _).unchangedOutside (by simp [rowWrites]))
  case addReg | sub | shr | subn | shl =>
    cases h
    exact .inr ((s.setRegAndFlag_advance_onlyChanges _ _ _).unchangedOutside (by simp [rowWrites]))
  case ldI | addIVx | ldFVx =>
    cases h
    exact .inr ((s.setIndex_advance_onlyChanges _).unchangedOutside (by simp [rowWrites]))
  case rnd =>
    cases h
    exact .inr ((s.setReg_advance_drawn_onlyChanges _ _ 2).unchangedOutside (by simp [rowWrites]))
  case ldDtVx =>
    cases h
    exact .inr (((s.withDt_onlyChanges _).trans (State.advance_onlyChanges _ 2)).unchangedOutside (by simp [rowWrites]))
  case ldStVx =>
    cases h
    exact .inr (((s.withSt_onlyChanges _).trans (State.advance_onlyChanges _ 2)).unchangedOutside (by simp [rowWrites]))

/-- Settles O40, by the table of R38 row by row: an error changes only `halted`, and every other outcome is a sequence of
state operations whose frames add up to the row. -/
theorem everyInstructionWritesOnlyItsRow : Obligations.EveryInstructionWritesOnlyItsRow := by
  intro i s t h
  rcases exec_row h with ⟨e, -, rfl⟩ | hrow
  · exact .inl ⟨e, rfl⟩
  · exact .inr hrow

end Sys2Proof.Machine
end

section
/-! SUPPORT. What a step can do, said once: it changes only `halted`, with a record that fits its error, or it executes one
instruction, which writes its row of R38, and ticks the timers. -/

namespace Sys2Proof.Machine

theorem not_rowWrites_halted (s : State) (i : Instr) : ¬ rowWrites s i .halted := by
  cases i <;> simp [rowWrites]

theorem Raises.halted_ne_none {i : Instr} {s t : State} (h : Raises i s t) : t.halted ≠ none := by
  obtain ⟨e, -, rfl⟩ := h
  simp

/-- The running machine `s` fetches and executes `i` without an error; `u` is the state before the tick. -/
structure State.Executes (s : State) (i : Instr) (u : State) : Prop where
  running : s.halted = none
  fetches : s.Fetches (encode i)
  decodes : decode s.cfg.zeroHeightDraw (encode i) = .ok i
  exec_eq : exec i s = .next u
  row : s.UnchangedOutside u (rowWrites s i)

theorem State.Executes.still_running {s u : State} {i : Instr} (h : s.Executes i u) : u.halted = none :=
  (h.row .halted (not_rowWrites_halted s i)).trans h.running

theorem State.Executes.not_raises {s u : State} {i : Instr} (h : s.Executes i u) : ¬ Raises i s u :=
  fun hraise => hraise.halted_ne_none h.still_running

/-- A fetch fails only at an address outside memory (R133). -/
theorem fetch_error_legal {s : State} {e : StepError} (h : fetch s = .error e) (pc : Addr) :
    ErrorRecord.Legal { error := e, op := none, pc := pc } := by
  unfold fetch at h
  split at h
  case isTrue =>
    cases h
    show memorySize ≤ _
    split <;> omega
  case isFalse => cases h

theorem cycle_answers (s : State) : ∃ p, cycle s = .next p := by
  unfold cycle
  split
  · exact ⟨_, rfl⟩
  · split
    · exact ⟨_, rfl⟩
    · split
      · exact ⟨_, rfl⟩
      · obtain ⟨t, ht⟩ := exec_answers _ s
        exact ⟨finish t, by rw [ht]⟩

/-- A cycle answers an error and changes only `halted`, or it executes an instruction and ticks. -/
theorem cycle_outcome {s t : State} {r : StepResult} (h : cycle s = .next (t, r)) :
    (∃ rec, r = .err rec ∧ t = { s with halted := some rec } ∧
      (s.halted = some rec ∨ (rec.Legal ∧ rec.pc = s.pc))) ∨
    ∃ i u, s.Executes i u ∧ t = u.tick ∧ r = .ok u.toneExpires := by
  rcases cycle_cases h with ⟨rec, hs, hp⟩ | ⟨-, e, hf, hp⟩ | ⟨-, op, d, -, -, hp⟩ | ⟨hs, op, i, u, hf, hd, he, hp⟩
  · cases hp
    exact .inl ⟨rec, rfl, by rw [← hs], .inl hs⟩
  · cases hp
    exact .inl ⟨_, rfl, rfl, .inr ⟨fetch_error_legal hf s.pc, rfl⟩⟩
  · cases hp
    exact .inl ⟨_, rfl, rfl, .inr ⟨rfl, rfl⟩⟩
  · rcases exec_row he with ⟨e, hlegal, rfl⟩ | hrow
    · rw [finish_err (s.raise_halted e _)] at hp
      cases hp
      exact .inl ⟨_, rfl, rfl, .inr ⟨hlegal, rfl⟩⟩
    · obtain rfl := encode_of_decode hd
      have hx : s.Executes i u := ⟨hs, (fetch_ok_iff s _).1 hf, hd, he, hrow⟩
      rw [finish_ok hx.still_running] at hp
      cases hp
      exact .inr ⟨i, u, hx, rfl, rfl⟩

theorem cycle_of_step {s t : State} (h : step s = .next t) : ∃ r, cycle s = .next (t, r) := by
  unfold step at h
  cases hc : cycle s with
  | next p =>
    rw [hc] at h
    cases h
    exact ⟨p.2, rfl⟩
  | fault f => cases f
  | refused r => rw [hc] at h; cases h

/-- A part other than `halted` and the timers changes only as the row of the executed instruction says. -/
theorem step_changes_row {s t : State} {p : Part} (h : step s = .next t) (hp : p ∉ [Part.halted, .dt, .st])
    (hne : ¬ Part.same s t p) : ∃ i u, s.Executes i u ∧ t = u.tick ∧ rowWrites s i p := by
  obtain ⟨r, hc⟩ := cycle_of_step h
  rcases cycle_outcome hc with ⟨rec, -, rfl, -⟩ | ⟨i, u, hx, rfl, -⟩
  · refine absurd (s.withHalted_onlyChanges _ p fun hmem => hp ?_) hne
    exact List.mem_cons.2 (.inl (List.mem_singleton.1 hmem))
  · have htick : Part.same u u.tick p := u.tick_onlyChanges p fun hmem => hp (List.mem_cons_of_mem _ hmem)
    exact ⟨i, u, hx, rfl, hx.row.written fun hsame => hne (Part.same_trans hsame htick)⟩

end Sys2Proof.Machine
end

section
/-! What a step changes and what it keeps (R22, R26 to R30, R344, R346): each part, by the rows of R38 that list it. -/

namespace Sys2Proof.Machine

/-! ### Which rows list a part -/

theorem mayWriteVF_of_rowWrites {s : State} {i : Instr} (h : rowWrites s i (.reg 15)) : mayWriteVF i := by
  cases i
  case ldVxMem x =>
    have hlast : ∃ k, k ≤ x ∧ 15 = k := by simpa [rowWrites] using h
    obtain ⟨k, hk, rfl⟩ := hlast
    exact Fin.ext (Nat.le_antisymm (Nat.le_of_lt_succ x.isLt) hk)
  all_goals simp_all [rowWrites, mayWriteVF]

theorem eq_call_or_ret_of_rowWrites_sp {s : State} {i : Instr} (h : rowWrites s i .sp) :
    (∃ nnn, i = .call nnn) ∨ i = .ret := by
  cases i <;> simp_all [rowWrites]

theorem eq_call_of_rowWrites_stackEntry {s : State} {i : Instr} {j : Fin 16} (h : rowWrites s i (.stackEntry j)) :
    j.val = s.sp.val ∧ ∃ nnn, i = .call nnn := by
  cases i <;> simp_all [rowWrites]

theorem eq_cls_or_drw_of_rowWrites_pixel {s : State} {i : Instr} {r : Fin 32} {c : Fin 64}
    (h : rowWrites s i (.pixel r c)) : i = .cls ∨ ∃ x y n, i = .drw x y n := by
  cases i <;> simp_all [rowWrites]

theorem eq_cls_or_drw_of_rowWrites_dirty {s : State} {i : Instr} (h : rowWrites s i .dirty) :
    i = .cls ∨ ∃ x y n, i = .drw x y n := by
  cases i <;> simp_all [rowWrites]

theorem eq_ldDtVx_of_rowWrites_dt {s : State} {i : Instr} (h : rowWrites s i .dt) : ∃ x, i = .ldDtVx x := by
  cases i <;> simp_all [rowWrites]

theorem eq_ldStVx_of_rowWrites_st {s : State} {i : Instr} (h : rowWrites s i .st) : ∃ x, i = .ldStVx x := by
  cases i <;> simp_all [rowWrites]

theorem not_rowWrites_key (s : State) (i : Instr) (k : KeyIdx) : ¬ rowWrites s i (.key k) := by
  cases i <;> simp [rowWrites]

/-- No instruction writes the keypad. -/
theorem exec_keys {i : Instr} {s t : State} (h : exec i s = .next t) : t.keys = s.keys := by
  rcases exec_row h with ⟨e, -, rfl⟩ | hrow
  · rfl
  · exact Vector.ext fun k hk => hrow (.key ⟨k, hk⟩) (not_rowWrites_key s i _)

theorem not_rowWrites_config (s : State) (i : Instr) : ¬ rowWrites s i .config := by
  cases i <;> simp [rowWrites]

/-! ### VF -/

/-- Settles O41: VF changes only by an executed instruction whose row lists it. -/
theorem onlyFlagWritersAndDestinationsChangeVF : Obligations.OnlyFlagWritersAndDestinationsChangeVF := by
  intro s t h hne
  obtain ⟨i, u, hx, -, hwrites⟩ := step_changes_row (p := .reg 15) h (by simp) hne
  exact ⟨encode i, i, hx.fetches, hx.decodes, mayWriteVF_of_rowWrites hwrites⟩

/-! ### The call stack -/

theorem State.Executes.ret_sp {s u : State} (h : s.Executes .ret u) : u.sp.val + 1 = s.sp.val := by
  rcases exec_ret_cases h.exec_eq with hraise | ⟨k, hk, hsp, rfl⟩
  · exact absurd hraise h.not_raises
  · exact hsp.symm

/-- CALL raises sp by one and stores its own address at the old sp (R162). -/
theorem State.Executes.call_stack {s u : State} {nnn : BitVec 12} (h : s.Executes (.call nnn) u) :
    u.sp.val = s.sp.val + 1 ∧ ∀ j : Fin 16, j.val = s.sp.val → u.stack[j.val] = s.pc := by
  rcases exec_call_cases h.exec_eq with hraise | ⟨hroom, rfl⟩
  · exact absurd hraise h.not_raises
  · refine ⟨rfl, fun j hj => ?_⟩
    simp [hj]

/-- Settles O42: the rows that list sp are those of CALL and RET, and the one that lists an entry is that of CALL. -/
theorem onlyCallAndReturnUseTheStack : Obligations.OnlyCallAndReturnUseTheStack := by
  intro s t h
  refine ⟨fun hne => ?sp, fun j hne => ?entry⟩
  case sp =>
    obtain ⟨i, u, hx, rfl, hwrites⟩ := step_changes_row (p := .sp) h (by simp) hne
    rcases eq_call_or_ret_of_rowWrites_sp hwrites with ⟨nnn, rfl⟩ | rfl
    · exact .inl ⟨nnn, hx.fetches, hx.call_stack.1⟩
    · exact .inr ⟨hx.fetches, hx.ret_sp⟩
  case entry =>
    obtain ⟨i, u, hx, rfl, hwrites⟩ := step_changes_row (p := .stackEntry j) h (by simp) hne
    obtain ⟨hj, nnn, rfl⟩ := eq_call_of_rowWrites_stackEntry hwrites
    exact ⟨hj, hx.call_stack.2 j hj, nnn, hx.fetches⟩

/-! ### The display, dirty, the keys and the parameters -/

/-- CLS and DRW set dirty (R281, R282). -/
theorem State.Executes.dirty {s u : State} {i : Instr} (h : s.Executes i u)
    (hi : i = .cls ∨ ∃ x y n, i = .drw x y n) : u.dirty = true := by
  rcases hi with rfl | ⟨x, y, n, rfl⟩
  · have hcls : exec .cls s = .next u := h.exec_eq
    cases hcls
    rfl
  · rcases exec_drw_cases h.exec_eq with hraise | ⟨rows, rfl⟩
    · exact absurd hraise h.not_raises
    · rfl

theorem State.Executes.fetches_cls_or_drw {s u : State} {i : Instr} (h : s.Executes i u)
    (hi : i = .cls ∨ ∃ x y n, i = .drw x y n) : s.Fetches 0x00E0 ∨ ∃ x y n, s.Fetches (encode (.drw x y n)) := by
  rcases hi with rfl | ⟨x, y, n, rfl⟩
  · exact .inl h.fetches
  · exact .inr ⟨x, y, n, h.fetches⟩

/-- Settles O43: the rows that list a pixel or dirty are those of CLS and DRW, and no row lists a key or a parameter. -/
theorem devicesChangeOnlyAsListed : Obligations.DevicesChangeOnlyAsListed := by
  intro s t h
  refine ⟨fun r c hne => ?pixel, fun hne => ?dirty, fun hs => ?set, fun k => ?key, ?config⟩
  case pixel =>
    obtain ⟨i, u, hx, -, hwrites⟩ := step_changes_row (p := .pixel r c) h (by simp) hne
    exact hx.fetches_cls_or_drw (eq_cls_or_drw_of_rowWrites_pixel hwrites)
  case dirty =>
    obtain ⟨i, u, hx, -, hwrites⟩ := step_changes_row (p := .dirty) h (by simp) hne
    exact hx.fetches_cls_or_drw (eq_cls_or_drw_of_rowWrites_dirty hwrites)
  case set =>
    by_contra hclear
    obtain ⟨i, u, hx, rfl, hwrites⟩ := step_changes_row (p := .dirty) h (by simp) fun hsame => hclear (hsame.trans hs)
    exact hclear (hx.dirty (eq_cls_or_drw_of_rowWrites_dirty hwrites))
  case key =>
    by_contra hne
    obtain ⟨i, u, -, -, hwrites⟩ := step_changes_row (p := .key k) h (by simp) hne
    exact not_rowWrites_key s i k hwrites
  case config =>
    by_contra hne
    obtain ⟨i, u, -, -, hwrites⟩ := step_changes_row (p := .config) h (by simp) hne
    exact not_rowWrites_config s i hwrites

/-! ### The timers -/

/-- Settles O45: a successful cycle ticks what the executed instruction left, and only FX15 and FX18 have a timer in their
rows. -/
theorem timersCountDownOncePerSuccessfulStep : Obligations.TimersCountDownOncePerSuccessfulStep := by
  intro s t tone h
  rcases cycle_outcome h with ⟨rec, herr, -⟩ | ⟨i, u, hx, rfl, htone⟩
  · cases herr
  refine ⟨?dt, ?st, fun hexpired => ?tone⟩
  case dt =>
    by_cases hsame : Part.same s u .dt
    · exact .inl (hsame ▸ tickTimer_toNat u.dt)
    · obtain ⟨x, rfl⟩ := eq_ldDtVx_of_rowWrites_dt (hx.row.written hsame)
      exact .inr ⟨x, hx.fetches⟩
  case st =>
    by_cases hsame : Part.same s u .st
    · exact .inl (hsame ▸ tickTimer_toNat u.st)
    · obtain ⟨x, rfl⟩ := eq_ldStVx_of_rowWrites_st (hx.row.written hsame)
      exact .inr ⟨x, hx.fetches⟩
  case tone =>
    cases htone
    rw [State.toneExpires_iff, decide_eq_true_eq] at hexpired
    rw [State.tick_st, hexpired]
    decide

end Sys2Proof.Machine
end

section
/-! Every step keeps the invariant (R39, R60, R135, R138, R330). -/

namespace Sys2Proof.Machine

/-! ### Memory -/

/-- An instruction leaves the memory list alone, or writes consecutive bytes inside memory (FX33, FX55). -/
theorem exec_mem_cases {i : Instr} {s t : State} (h : exec i s = .next t) :
    t.mem = s.mem ∨ ∃ bytes, s.i.toNat + bytes.length ≤ memorySize ∧
      t.mem = Memory.writeAll s.cfg.font s.mem s.i.toNat bytes := by
  cases i
  case ldBVx x =>
    rcases exec_ldBVx_cases h with ⟨e, -, rfl⟩ | ⟨hin, rfl⟩
    · exact .inl rfl
    · exact .inr ⟨bcdDigits (s.reg x), hin 2 (Nat.lt_succ_self 2), rfl⟩
  case ldMemVx x =>
    rcases exec_ldMemVx_cases h with ⟨e, -, rfl⟩ | ⟨hin, rfl⟩
    · exact .inl rfl
    · refine .inr ⟨_, ?_, rfl⟩
      rw [State.length_regsUpTo] at hin ⊢
      exact hin x.val (Nat.lt_succ_self _)
  case ret => rcases exec_ret_cases h with ⟨e, -, rfl⟩ | ⟨k, hk, -, rfl⟩ <;> exact .inl rfl
  case call => rcases exec_call_cases h with ⟨e, -, rfl⟩ | ⟨hroom, rfl⟩ <;> exact .inl rfl
  case drw => rcases exec_drw_cases h with ⟨e, -, rfl⟩ | ⟨rows, rfl⟩ <;> exact .inl rfl
  case skp => rcases exec_skp_cases h with ⟨e, -, rfl⟩ | ⟨c, rfl⟩ <;> exact .inl rfl
  case sknp => rcases exec_sknp_cases h with ⟨e, -, rfl⟩ | ⟨c, rfl⟩ <;> exact .inl rfl
  case ldVxMem => rcases exec_ldVxMem_cases h with ⟨e, -, rfl⟩ | ⟨bytes, -, rfl⟩ <;> exact .inl rfl
  case ldVxK => rcases exec_ldVxK_cases h with rfl | ⟨k, -, rfl⟩ <;> exact .inl rfl
  all_goals cases h; exact .inl rfl

theorem State.Executes.cfg_eq {s u : State} {i : Instr} (h : s.Executes i u) : u.cfg = s.cfg :=
  h.row .config (not_rowWrites_config s i)

theorem State.Executes.memory_wf {s u : State} {i : Instr} (h : s.Executes i u)
    (hs : Memory.wf s.cfg.font s.mem = true) : Memory.wf u.cfg.font u.mem = true := by
  rw [h.cfg_eq]
  rcases exec_mem_cases h.exec_eq with hmem | ⟨bytes, hin, hmem⟩
  · rwa [hmem]
  · rw [hmem]
    exact Memory.wf_writeAll bytes hin hs

/-! ### The program counter -/

/-- Where an instruction leaves pc: at itself, 2 or 4 after it, at a literal address, at a register value plus a literal
address, or 2 after a stack entry (R135). -/
inductive PcAfter (s : State) : Addr → Prop
  | here : PcAfter s s.pc
  | next : PcAfter s (s.pc + 2)
  | skip : PcAfter s (s.pc + 4)
  | literal (nnn : BitVec 12) : PcAfter s (literalAddr nnn)
  | indexed (b : Byte) (nnn : BitVec 12) : PcAfter s (byteAddr b + literalAddr nnn)
  | afterEntry (j : Fin 16) : PcAfter s (s.stack[j.val] + 2)

theorem pcAfter_skipIf (s : State) (c : Bool) : PcAfter s (s.skipIf c).pc := by
  cases c
  · exact .next
  · exact .skip

theorem exec_pc_cases {i : Instr} {s t : State} (h : exec i s = .next t) : PcAfter s t.pc := by
  cases i
  case ret =>
    rcases exec_ret_cases h with ⟨e, -, rfl⟩ | ⟨k, hk, -, rfl⟩
    · exact .here
    · exact .afterEntry ⟨k, hk⟩
  case call nnn =>
    rcases exec_call_cases h with ⟨e, -, rfl⟩ | ⟨hroom, rfl⟩
    · exact .here
    · exact .literal nnn
  case skp =>
    rcases exec_skp_cases h with ⟨e, -, rfl⟩ | ⟨c, rfl⟩
    · exact .here
    · exact pcAfter_skipIf s c
  case sknp =>
    rcases exec_sknp_cases h with ⟨e, -, rfl⟩ | ⟨c, rfl⟩
    · exact .here
    · exact pcAfter_skipIf s c
  case drw =>
    rcases exec_drw_cases h with ⟨e, -, rfl⟩ | ⟨rows, rfl⟩
    · exact .here
    · exact .next
  case ldBVx =>
    rcases exec_ldBVx_cases h with ⟨e, -, rfl⟩ | ⟨-, rfl⟩
    · exact .here
    · exact .next
  case ldMemVx =>
    rcases exec_ldMemVx_cases h with ⟨e, -, rfl⟩ | ⟨-, rfl⟩
    · exact .here
    · exact .next
  case ldVxMem =>
    rcases exec_ldVxMem_cases h with ⟨e, -, rfl⟩ | ⟨bytes, -, rfl⟩
    · exact .here
    · exact .next
  case ldVxK =>
    rcases exec_ldVxK_cases h with rfl | ⟨k, -, rfl⟩
    · exact .here
    · exact .next
  case jp nnn => cases h; exact .literal nnn
  case jpV0 nnn => cases h; exact .indexed (s.reg 0) nnn
  case seImm | sneImm | seReg | sneReg => cases h; exact pcAfter_skipIf s _
  all_goals cases h; exact .next

theorem literalAddr_toNat_le (nnn : BitVec 12) : (literalAddr nnn).toNat ≤ 0xFFF := by
  unfold literalAddr
  bv_omega

theorem byteAddr_toNat_le (b : Byte) : (byteAddr b).toNat ≤ 0xFF := by
  unfold byteAddr
  bv_omega

theorem addr_add_toNat_le (a b : Addr) : (a + b).toNat ≤ a.toNat + b.toNat := by
  rw [BitVec.toNat_add]
  exact Nat.mod_le _ _

/-- The reckoning of R135: pc is at most 0x10FE wherever an instruction that was fetched leaves it. -/
theorem PcAfter.le {s : State} {a : Addr} (h : PcAfter s a) (hpc : s.pc.toNat ≤ 0xFFE)
    (hstack : ∀ j : Fin 16, s.stack[j.val].toNat ≤ 0xFFE) : a.toNat ≤ 0x10FE := by
  have htwo : (2 : Addr).toNat = 2 := rfl
  have hfour : (4 : Addr).toNat = 4 := rfl
  cases h with
  | here => omega
  | next => have := addr_add_toNat_le s.pc 2; omega
  | skip => have := addr_add_toNat_le s.pc 4; omega
  | literal nnn => have := literalAddr_toNat_le nnn; omega
  | indexed b nnn =>
    have := addr_add_toNat_le (byteAddr b) (literalAddr nnn)
    have := byteAddr_toNat_le b
    have := literalAddr_toNat_le nnn
    omega
  | afterEntry j =>
    have := addr_add_toNat_le s.stack[j.val] 2
    have := hstack j
    omega

/-- An instruction that was fetched lies inside memory (R133). -/
theorem State.Executes.pc_le {s u : State} {i : Instr} (h : s.Executes i u) : s.pc.toNat ≤ 0xFFE := by
  have := h.fetches.1
  omega

/-! ### The stack -/

/-- An entry is as it was, or it is the address of the CALL that executed (R26, R162). -/
theorem State.Executes.stackEntry_cases {s u : State} {i : Instr} (h : s.Executes i u) (j : Fin 16) :
    u.stack[j.val] = s.stack[j.val] ∨ u.stack[j.val] = s.pc := by
  by_cases hsame : Part.same s u (.stackEntry j)
  · exact .inl hsame
  · obtain ⟨hj, nnn, rfl⟩ := eq_call_of_rowWrites_stackEntry (h.row.written hsame)
    exact .inr (h.call_stack.2 j hj)

theorem State.Executes.stackEntry_le {s u : State} {i : Instr} (h : s.Executes i u)
    (hs : ∀ j : Fin 16, s.stack[j.val].toNat ≤ 0xFFE) (j : Fin 16) : u.stack[j.val].toNat ≤ 0xFFE := by
  rcases h.stackEntry_cases j with hj | hj
  · exact hj ▸ hs j
  · exact hj ▸ h.pc_le

/-! ### The step -/

/-- A halting step keeps the invariant when its record fits its error and names pc. -/
theorem State.Inv.withHalted {s : State} {rec : ErrorRecord} (h : s.Inv) (hlegal : rec.Legal) (hpc : rec.pc = s.pc) :
    ({ s with halted := some rec } : State).Inv where
  memory := h.memory
  pcBound := h.pcBound
  stackBound := h.stackBound
  record r hr := by
    cases hr
    exact ⟨hlegal, hpc⟩

/-- An executed instruction and the tick keep the invariant. -/
theorem State.Executes.inv_tick {s u : State} {i : Instr} (hx : s.Executes i u) (h : s.Inv) : u.tick.Inv where
  memory := hx.memory_wf h.memory
  pcBound := (exec_pc_cases hx.exec_eq).le hx.pc_le h.stackBound
  stackBound := hx.stackEntry_le h.stackBound
  record r hr := by cases hx.still_running.symm.trans hr

/-- Settles O49: a step that halts adds a fitting record, a step of a halted machine keeps the record it had, and a step
that executes an instruction keeps each bound of the invariant. -/
theorem everyStepKeepsTheInvariant : Obligations.EveryStepKeepsTheInvariant := by
  intro s t h hstep
  obtain ⟨r, hc⟩ := cycle_of_step hstep
  rcases cycle_outcome hc with ⟨rec, -, rfl, hrec⟩ | ⟨i, u, hx, rfl, -⟩
  · have hfits : rec.Legal ∧ rec.pc = s.pc := hrec.elim (h.record rec) id
    exact h.withHalted hfits.1 hfits.2
  · exact hx.inv_tick h

end Sys2Proof.Machine
end

section
/-! What an instruction cannot see (R26, R27, R30): the keypad, ST and the stale stack entries are laid over a state at
once, and the instruction does the same on it. -/

namespace Sys2Proof.Machine

/-! ### Overlays -/

/-- The state with another keypad, another ST and another stack. -/
def State.overlay (s : State) (keys : Keypad) (st : Byte) (stack : Vector Addr 16) : State :=
  { s with keys := keys, st := st, stack := stack }

/-- Two stacks agree on the entries in use (R26). -/
abbrev SameBelow (sp : Fin 17) (stack stack' : Vector Addr 16) : Prop :=
  ∀ j : Fin 16, j.val < sp.val → stack[j.val] = stack'[j.val]

section
variable {i : Instr} {s t : State} {keys : Keypad} {st : Byte} {stack : Vector Addr 16}

/-- The instruction takes `s` with an overlay to `t` with an overlay of the same keypad, whose ST and stack are those of
`t` where they were those of `s`, and whose entries below sp are those of `t`. -/
def OverlayRuns (i : Instr) (s t : State) (keys : Keypad) (st : Byte) (stack : Vector Addr 16) : Prop :=
  ∃ st' stack', exec i (s.overlay keys st stack) = .next (t.overlay keys st' stack') ∧
    (st = s.st → st' = t.st) ∧ (stack = s.stack → stack' = t.stack) ∧ SameBelow t.sp stack' t.stack

/-- `t` has the ST, the stack and sp of `s`. -/
structure HiddenKept (s t : State) : Prop where
  st : t.st = s.st
  stack : t.stack = s.stack
  sp : t.sp = s.sp

theorem HiddenKept.refl (s : State) : HiddenKept s s := ⟨rfl, rfl, rfl⟩

/-- An instruction that touches neither ST nor the stack leaves the overlay as it is. -/
theorem HiddenKept.overlayRuns (hkept : HiddenKept s t) (hbelow : SameBelow s.sp stack s.stack)
    (hrun : exec i (s.overlay keys st stack) = .next (t.overlay keys st stack)) : OverlayRuns i s t keys st stack := by
  refine ⟨st, stack, hrun, fun h => h.trans hkept.st.symm, fun h => h.trans hkept.stack.symm, fun j hj => ?_⟩
  rw [hkept.sp] at hj
  simp only [hkept.stack, hbelow j hj]

theorem readBytes_overlay (a n : Nat) : readBytes (s.overlay keys st stack) a n = readBytes s a n := by
  induction n generalizing a with
  | zero => rfl
  | succ n ih =>
    simp only [readBytes, ih]
    rfl

/-- A write transfer on an overlay is the overlay of the transfer, whatever is built from it. -/
theorem writeBytes_overlay_map (a : Nat) (bytes : List Byte) (build : State → State) :
    (writeBytes (s.overlay keys st stack) a bytes).map build =
      (writeBytes s a bytes).map fun u => build (u.overlay keys st stack) := by
  rcases writeBytes_cases bytes s a with ⟨hfree, hok⟩ | ⟨k, e, hk, hbefore, he, herr⟩
  · rw [hok, writeBytes_ok bytes (s.overlay keys st stack) a hfree]
    rfl
  · rw [herr, writeBytes_error bytes (s.overlay keys st stack) a k e hk hbefore he]
    rfl

/-- An instruction that can fail fails alike on an overlay, and builds the overlay of what it builds. -/
theorem attempt_overlayRuns {α : Type} {r : Except StepError α} {build build' : α → State}
    (h : attempt i s (r.map build) = .next t) (hbelow : SameBelow s.sp stack s.stack)
    (hexec : exec i (s.overlay keys st stack) = attempt i (s.overlay keys st stack) (r.map build'))
    (hbuild : ∀ a, build' a = (build a).overlay keys st stack)
    (hkept : ∀ a, r = .ok a → HiddenKept s (build a)) : OverlayRuns i s t keys st stack := by
  rcases attempt_map_cases h with ⟨e, rfl, rfl⟩ | ⟨a, rfl, rfl⟩
  · exact HiddenKept.overlayRuns ⟨rfl, rfl, rfl⟩ hbelow hexec
  · exact (hkept a rfl).overlayRuns hbelow (hexec.trans (congrArg _ (hbuild a)))

/-! ### RET and CALL -/

theorem exec_ret_overlay (h : exec .ret s = .next t) (hbelow : SameBelow s.sp stack s.stack) :
    OverlayRuns .ret s t keys st stack := by
  cases hsp : s.sp.val with
  | zero =>
    rw [exec_ret_of_empty hsp] at h
    cases h
    exact HiddenKept.overlayRuns ⟨rfl, rfl, rfl⟩ hbelow (exec_ret_of_empty hsp)
  | succ k =>
    have hk : k < 16 := by have := s.sp.isLt; omega
    rw [exec_ret_of_entry k hk hsp] at h
    cases h
    have hentry : stack[k] = s.stack[k] := hbelow ⟨k, hk⟩ (by simp only [hsp]; exact Nat.lt_succ_self k)
    refine ⟨st, stack, ?run, id, id, fun j (hj : j.val < k) => hbelow j (by omega)⟩
    case run =>
      rw [exec_ret_of_entry (s := s.overlay keys st stack) k hk hsp]
      simp only [State.overlay, State.jump, hentry]

theorem exec_call_overlay {nnn : BitVec 12} (h : exec (.call nnn) s = .next t)
    (hbelow : SameBelow s.sp stack s.stack) :
    OverlayRuns (.call nnn) s t keys st stack := by
  by_cases hroom : s.sp.val < 16
  · rw [exec_call_of_room nnn hroom] at h
    cases h
    refine ⟨st, stack.set s.sp.val s.pc hroom, exec_call_of_room nnn (s := s.overlay keys st stack) hroom, id,
      fun hsame => by rw [hsame]; rfl, fun j hj => ?below⟩
    case below =>
      have hj : j.val < s.sp.val + 1 := hj
      by_cases htop : s.sp.val = j.val
      · simp [htop]
      · simp [Vector.getElem_set_ne, htop, hbelow j (by omega)]
  · rw [exec_call_of_full nnn hroom] at h
    cases h
    exact HiddenKept.overlayRuns ⟨rfl, rfl, rfl⟩ hbelow (exec_call_of_full nnn (s := s.overlay keys st stack) hroom)

/-! ### Instructions that read the keypad -/

theorem exec_ldVxK_overlay {x : RegIdx} (h : exec (.ldVxK x) s = .next t)
    (hbelow : SameBelow s.sp stack s.stack) :
    OverlayRuns (.ldVxK x) s t s.keys st stack := by
  rw [exec_ldVxK] at h
  cases h
  have hrun : exec (.ldVxK x) (s.overlay s.keys st stack) =
      .next (keyWaitWith s.nextKeyChoice x (s.overlay s.keys st stack)) := rfl
  have hpressed : (s.overlay s.keys st stack).pressedKeys = s.pressedKeys := rfl
  cases hchosen : chooseKey s.nextKeyChoice s.pressedKeys with
  | none =>
    simp only [keyWaitWith, hpressed, hchosen] at hrun ⊢
    exact (HiddenKept.refl s).overlayRuns hbelow hrun
  | some k =>
    simp only [keyWaitWith, hpressed, hchosen] at hrun ⊢
    exact HiddenKept.overlayRuns ⟨rfl, rfl, rfl⟩ hbelow hrun

/-! ### Every instruction -/

/-- The keypad matters only to EX9E, EXA1 and FX0A, ST to none, and a stack entry only below sp. -/
theorem exec_overlay (h : exec i s = .next t)
    (hkeys : keys = s.keys ∨ ∀ x, i ≠ .skp x ∧ i ≠ .sknp x ∧ i ≠ .ldVxK x)
    (hbelow : SameBelow s.sp stack s.stack) :
    OverlayRuns i s t keys st stack := by
  cases i
  case ret => exact exec_ret_overlay h hbelow
  case call => exact exec_call_overlay h hbelow
  case skp x =>
    rcases hkeys with rfl | hother
    · rw [exec_skp] at h
      exact attempt_overlayRuns h hbelow (exec_skp x _) (fun _ => rfl) fun _ _ => ⟨rfl, rfl, rfl⟩
    · exact absurd rfl (hother x).1
  case sknp x =>
    rcases hkeys with rfl | hother
    · rw [exec_sknp] at h
      exact attempt_overlayRuns h hbelow (exec_sknp x _) (fun _ => rfl) fun _ _ => ⟨rfl, rfl, rfl⟩
    · exact absurd rfl (hother x).2.1
  case ldVxK x =>
    rcases hkeys with rfl | hother
    · exact exec_ldVxK_overlay h hbelow
    · exact absurd rfl (hother x).2.2
  case drw x y n =>
    rw [exec_drw] at h
    exact attempt_overlayRuns h hbelow ((exec_drw x y n _).trans (by rw [readBytes_overlay]; rfl)) (fun _ => rfl)
      fun _ _ => ⟨rfl, rfl, rfl⟩
  case ldVxMem x =>
    rw [exec_ldVxMem] at h
    exact attempt_overlayRuns h hbelow ((exec_ldVxMem x _).trans (by rw [readBytes_overlay]; rfl)) (fun _ => rfl)
      fun _ _ => ⟨rfl, rfl, rfl⟩
  case ldBVx x =>
    rw [exec_ldBVx] at h
    refine attempt_overlayRuns h hbelow ((exec_ldBVx x _).trans (by rw [writeBytes_overlay_map]; rfl)) (fun _ => rfl)
      fun u hu => ?_
    obtain ⟨-, rfl⟩ := writeBytes_of_ok hu
    exact ⟨rfl, rfl, rfl⟩
  case ldMemVx x =>
    rw [exec_ldMemVx] at h
    refine attempt_overlayRuns h hbelow ((exec_ldMemVx x _).trans (by rw [writeBytes_overlay_map]; rfl)) (fun _ => rfl)
      fun u hu => ?_
    obtain ⟨-, rfl⟩ := writeBytes_of_ok hu
    exact ⟨rfl, rfl, rfl⟩
  case ldStVx x =>
    cases h
    exact ⟨s.reg x, stack, rfl, fun _ => rfl, id, hbelow⟩
  all_goals
    cases h
    exact HiddenKept.overlayRuns ⟨rfl, rfl, rfl⟩ hbelow rfl

end

/-! ### The keypad -/

/-- Settles O54: an overlay of the keypad alone. -/
theorem otherInstructionsIgnoreTheKeypad : Obligations.OtherInstructionsIgnoreTheKeypad := by
  intro i s t keys hother h
  obtain ⟨st', stack', hrun, hst, hstack, -⟩ :=
    exec_overlay (keys := keys) (st := s.st) (stack := s.stack) h (.inr hother) fun _ _ => rfl
  rw [hst rfl, hstack rfl] at hrun
  exact hrun

/-! ### ST -/

/-- Settles O55: an overlay of ST alone. -/
theorem noInstructionReadsTheSoundTimer : Obligations.NoInstructionReadsTheSoundTimer := by
  intro i s t st h
  obtain ⟨st', stack', hrun, -, hstack, -⟩ :=
    exec_overlay (keys := s.keys) (st := st) (stack := s.stack) h (.inl rfl) fun _ _ => rfl
  rw [hstack rfl] at hrun
  exact ⟨{ t with st := st' }, hrun.trans (by rw [← exec_keys h]; rfl), t.withSt_onlyChanges st'⟩

/-! ### Stack entries at sp and above -/

/-- An instruction on another stack that agrees below sp leaves another stack that agrees below sp. -/
theorem exec_withStack {i : Instr} {s t : State} {stack : Vector Addr 16} (h : exec i s = .next t)
    (hbelow : SameBelow s.sp stack s.stack) :
    ∃ stack', exec i { s with stack := stack } = .next { t with stack := stack' } ∧ SameBelow t.sp stack' t.stack := by
  obtain ⟨st', stack', hrun, hst, -, hbelow'⟩ := exec_overlay (keys := s.keys) (st := s.st) h (.inl rfl) hbelow
  rw [hst rfl] at hrun
  exact ⟨stack', hrun.trans (by rw [← exec_keys h]; rfl), hbelow'⟩

/-- The end of a step does not see the stack. -/
theorem finish_withStack (t : State) (stack : Vector Addr 16) :
    finish { t with stack := stack } = ({ (finish t).1 with stack := stack }, (finish t).2) := by
  rcases Option.eq_none_or_eq_some t.halted with ht | ⟨r, ht⟩
  · rw [finish_ok ht, finish_ok (t := { t with stack := stack }) ht]
    rfl
  · rw [finish_err ht, finish_err (t := { t with stack := stack }) ht]

theorem finish_stack_sp (t : State) : (finish t).1.stack = t.stack ∧ (finish t).1.sp = t.sp := by
  rcases Option.eq_none_or_eq_some t.halted with ht | ⟨r, ht⟩
  · rw [finish_ok ht]
    exact ⟨rfl, rfl⟩
  · rw [finish_err ht]
    exact ⟨rfl, rfl⟩

/-- Settles O56, case by case of a cycle: only an executed instruction could look at the stack. -/
theorem entriesAboveTheTopAreNotObservable : Obligations.EntriesAboveTheTopAreNotObservable := by
  intro s stack hbelow
  obtain ⟨p, hp⟩ := cycle_answers s
  rcases cycle_cases hp with ⟨r, hs, rfl⟩ | ⟨hs, e, hf, rfl⟩ | ⟨hs, op, d, hf, hd, rfl⟩ |
    ⟨hs, op, i, t, hf, hd, ht, rfl⟩
  · exact ⟨s, _, stack, hp, cycle_halted (s := { s with stack := stack }) hs, hbelow⟩
  · exact ⟨_, _, stack, hp, cycle_fetch_error (s := { s with stack := stack }) hs hf, hbelow⟩
  · exact ⟨_, _, stack, hp, cycle_unknown (s := { s with stack := stack }) hs hf hd, hbelow⟩
  · obtain ⟨stack', hrun, hbelow'⟩ := exec_withStack ht hbelow
    obtain ⟨hstack, hsp⟩ := finish_stack_sp t
    refine ⟨(finish t).1, (finish t).2, stack', hp, ?run, ?below⟩
    case run => rw [cycle_exec (s := { s with stack := stack }) hs hf hd hrun, finish_withStack]
    case below => rwa [hstack, hsp]

end Sys2Proof.Machine
end

section
/-! Which bytes of memory can change (R60 to R64, R381), and when a stored byte is fetched (R77, R393). -/

namespace Sys2Proof.Machine

/-! ### A byte that an instruction or a step changes -/

theorem eq_store_of_rowWrites_byte {s : State} {i : Instr} {a : Nat} (h : rowWrites s i (.byte a)) :
    ∃ x, i = .ldBVx x ∨ i = .ldMemVx x := by
  cases i <;> simp_all [rowWrites]

/-- A write transfer that succeeds changes only bytes that may be written (R61, R64). -/
theorem writeBytes_changed_writable {s t : State} {a b : Nat} {bytes : List Byte} (h : writeBytes s a bytes = .ok t)
    (hne : t.byteAt b ≠ s.byteAt b) : Writable s.cfg b := by
  rcases writeBytes_cases bytes s a with ⟨hfree, hok⟩ | ⟨k, e, -, -, -, herr⟩
  · cases hok.symm.trans h
    obtain ⟨k, hk, hb⟩ := (s.withBytes_unchangedOutside a bytes).written (p := .byte b) hne
    cases hb
    exact (storeError_none_iff _ _).1 (hfree k hk)
  · cases herr.symm.trans h

/-- The same for an instruction made of a write transfer and of operations that leave memory alone. -/
theorem attempt_writeBytes_changed_writable {i : Instr} {s t : State} {a b : Nat} {bytes : List Byte}
    {build : State → State} (h : attempt i s ((writeBytes s a bytes).map build) = .next t)
    (hbuild : ∀ u, (build u).byteAt b = u.byteAt b) (hne : t.byteAt b ≠ s.byteAt b) : Writable s.cfg b := by
  rcases attempt_map_cases h with ⟨e, -, rfl⟩ | ⟨u, hu, rfl⟩
  · exact absurd rfl hne
  · exact writeBytes_changed_writable hu (hbuild u ▸ hne)

/-- A step that changes a byte executes FX33 or FX55, and the byte may be written (R60, R62, R64). -/
theorem step_changed_byte {s t : State} {a : Nat} (h : step s = .next t) (hne : t.byteAt a ≠ s.byteAt a) :
    Writable s.cfg a ∧ ∃ x, s.Fetches (encode (.ldBVx x)) ∨ s.Fetches (encode (.ldMemVx x)) := by
  obtain ⟨i, u, hx, rfl, hwrites⟩ := step_changes_row (p := .byte a) h (by simp) hne
  obtain ⟨x, rfl | rfl⟩ := eq_store_of_rowWrites_byte hwrites
  · exact ⟨attempt_writeBytes_changed_writable ((exec_ldBVx x s).symm.trans hx.exec_eq) (fun _ => rfl) hne,
      x, .inl hx.fetches⟩
  · exact ⟨attempt_writeBytes_changed_writable ((exec_ldMemVx x s).symm.trans hx.exec_eq) (fun _ => rfl) hne,
      x, .inr hx.fetches⟩

/-- Settles O44: a byte that a step changes is one that FX33 or FX55 may write. -/
theorem onlyStoresChangeMemory : Obligations.OnlyStoresChangeMemory := by
  intro s t h a hne
  obtain ⟨⟨hin, -⟩, hstore⟩ := step_changed_byte h hne
  exact ⟨hin, hstore⟩

/-! ### Moves -/

theorem step_answers (s : State) : ∃ t, step s = .next t := by
  obtain ⟨⟨t, r⟩, hc⟩ := cycle_answers s
  exact ⟨t, step_of_cycle hc⟩

/-- A step move leaves what `step` answers. -/
theorem State.step_eq_move (s : State) : step s = .next (s.move .step) := by
  obtain ⟨t, ht⟩ := step_answers s
  simp [State.move, ht]

/-- A load copies its image, or is rejected and changes nothing (R333, R381). -/
theorem State.hostApply_load_cases (s : State) (bytes : List Byte) :
    s.hostApply (.load bytes) = s ∨
      s.hostApply (.load bytes) = { s with mem := Memory.writeAll s.cfg.font s.mem programBase bytes } := by
  by_cases hbig : maxImage < bytes.length
  · exact .inl (by simp [State.hostApply, State.loadProgram, hbig])
  · exact .inr (by simp [State.hostApply, State.loadProgram, hbig])

theorem step_cfg {s t : State} (h : step s = .next t) : t.cfg = s.cfg := by
  obtain ⟨-, -, -, -, hcfg⟩ := devicesChangeOnlyAsListed s t h
  exact hcfg

theorem State.hostApply_cfg (s : State) (op : HostOp) : (s.hostApply op).cfg = s.cfg := by
  cases op with
  | load bytes => rcases s.hostApply_load_cases bytes with h | h <;> rw [h]
  | init | setKey | clearDirty => rfl

theorem State.move_cfg (s : State) (m : Move) : (s.move m).cfg = s.cfg := by
  cases m with
  | step => exact step_cfg s.step_eq_move
  | host op => exact s.hostApply_cfg op

/-! ### Memory below 0x200 -/

theorem State.LowMemoryIntact.congr {s t : State} (h : s.LowMemoryIntact) (hcfg : t.cfg = s.cfg)
    (hsame : ∀ a, a < 0x200 → t.byteAt a = s.byteAt a) : t.LowMemoryIntact := by
  intro a ha
  rw [hsame a ha, hcfg]
  exact h a ha

/-- Under `RESERVED_WRITE = fault` no byte below 0x200 may be written (R64). -/
theorem not_writable_of_reserved {cfg : Config} {a : Nat} (hcfg : cfg.reservedWrite = .fault) (ha : a < 0x200) :
    ¬ Writable cfg a := by
  rintro ⟨-, hle | hallow⟩
  · omega
  · cases hcfg.symm.trans hallow

theorem step_keeps_lowMemory {s t : State} (h : step s = .next t) (hcfg : s.cfg.reservedWrite = .fault)
    (hs : s.LowMemoryIntact) : t.LowMemoryIntact := by
  refine hs.congr (step_cfg h) fun a ha => ?_
  by_contra hne
  exact not_writable_of_reserved hcfg ha (step_changed_byte h hne).1

/-- The host writes memory at 0x200 and above, or resets it (R380, R381). -/
theorem State.hostApply_keeps_lowMemory {s : State} (hs : s.LowMemoryIntact) (op : HostOp) :
    (s.hostApply op).LowMemoryIntact := by
  cases op with
  | init => exact fun _ _ => rfl
  | load bytes =>
    rcases s.hostApply_load_cases bytes with h | h
    · rwa [h]
    · rw [h]
      refine hs.congr rfl fun a ha => s.withBytes_unchangedOutside programBase bytes (.byte a) ?_
      rintro ⟨k, -, hb⟩
      cases hb
      exact Nat.not_lt.2 (Nat.le_add_right programBase k) ha
  | setKey | clearDirty => exact hs

theorem State.move_keeps_lowMemory {s : State} (hcfg : s.cfg.reservedWrite = .fault) (hs : s.LowMemoryIntact)
    (m : Move) : (s.move m).LowMemoryIntact := by
  cases m with
  | step => exact step_keeps_lowMemory s.step_eq_move hcfg hs
  | host op => exact State.hostApply_keeps_lowMemory hs op

/-- Settles O51, by induction on the moves: each keeps the parameters and the bytes below 0x200. -/
theorem lowMemoryStaysIntact : Obligations.LowMemoryStaysIntact := by
  intro moves
  induction moves with
  | nil => exact fun s _ hs => ⟨hs, rfl⟩
  | cons m moves ih =>
    intro s hcfg hs
    have hmove : (s.move m).cfg = s.cfg := s.move_cfg m
    obtain ⟨hlow, hrun⟩ := ih (s.move m) (by rwa [hmove]) (State.move_keeps_lowMemory hcfg hs m)
    exact ⟨hlow, hrun.trans hmove⟩

/-! ### A dump over the next instruction -/

theorem decode_encode_ldMemVx (zh : ZeroHeightDraw) (x : RegIdx) :
    decode zh (encode (.ldMemVx x)) = .ok (.ldMemVx x) := by
  simp [decode, encode, decodeMisc]

/-- A step that fetches an instruction which raises no error leaves what the instruction leaves, ticked (R136, R137). -/
theorem step_of_exec {s u : State} {i : Instr} (hs : s.halted = none) (hf : s.Fetches (encode i))
    (hd : decode s.cfg.zeroHeightDraw (encode i) = .ok i) (he : exec i s = .next u) (hu : u.halted = none) :
    step s = .next u.tick := by
  have hc := cycle_exec hs ((fetch_ok_iff s _).2 hf) hd he
  rw [finish_ok hu] at hc
  exact step_of_cycle hc

/-- The state that an FX55 which raises no error leaves (R254). -/
def State.dumped (s : State) (x : RegIdx) : State :=
  (({ s with mem := Memory.writeAll s.cfg.font s.mem s.i.toNat (s.regsUpTo x) } : State).setIndex
    (incIndex s.cfg.loadStoreIncrement s.i x)).advance 2

theorem exec_ldMemVx_of_writable {x : RegIdx} {s : State} (h : ∀ k, k ≤ x.val → Writable s.cfg (s.i.toNat + k)) :
    exec (.ldMemVx x) s = .next (s.dumped x) := by
  have hok := writeBytes_ok (s.regsUpTo x) s s.indexBase fun k hk =>
    (storeError_none_iff _ _).2 (h k (by rw [State.length_regsUpTo] at hk; omega))
  rw [exec_ldMemVx, hok]
  rfl

theorem State.byteAt_dumped (s : State) {x k : RegIdx} (hk : k ≤ x) :
    (s.dumped x).byteAt (s.i.toNat + k.val) = s.reg k := by
  have hin : s.i.toNat ≤ s.i.toNat + k.val ∧ s.i.toNat + k.val < s.i.toNat + (s.regsUpTo x).length := by
    rw [State.length_regsUpTo]
    have := Fin.le_iff_val_le_val.1 hk
    omega
  refine (Memory.read_writeAll ..).trans ((dif_pos hin).trans ?_)
  simp [State.getElem_regsUpTo, State.reg]

/-- Settles O46: FX55 leaves V0 and V1 where its successor is fetched. -/
theorem storedCodeIsFetchedNext : Obligations.StoredCodeIsFetchedNext := by
  intro x s hs hf hx hi hw
  refine ⟨(s.dumped x).tick, composeOpcode (s.reg 0) (s.reg 1), ?step, ?fetch, composeOpcode_toNat _ _⟩
  case step => exact step_of_exec hs hf (decode_encode_ldMemVx _ x) (exec_ldMemVx_of_writable hw) hs
  case fetch =>
    have hpc : (s.dumped x).tick.pc.toNat = s.i.toNat := by
      have := hf.1
      show (s.pc + 2).toNat = s.i.toNat
      bv_omega
    have h0 : (s.dumped x).tick.byteAt s.i.toNat = s.reg 0 := s.byteAt_dumped (Fin.zero_le x)
    have h1 : (s.dumped x).tick.byteAt (s.i.toNat + 1) = s.reg 1 := s.byteAt_dumped (k := 1) hx
    refine (fetch_ok_iff _ _).2 ⟨?inside, ?bytes⟩
    case inside => exact hpc ▸ (hw 1 hx).1
    case bytes => rw [hpc, h0, h1, composeOpcode_toNat]

end Sys2Proof.Machine
end

section
/-! The decoder and the encoder are inverse to each other, and the opcodes that do not decode (R92, R95 to R97). -/

namespace Sys2Proof

/-! ### A draw: the one instruction that the parameter can refuse -/

theorem idxNibble_eq_zero_iff (k : Fin 16) : idxNibble k = 0 ↔ k = 0 := by
  revert k
  decide

/-- Well-formedness of a draw is the condition that the decoder tests (R95). -/
theorem wellFormed_drw_iff {zh : ZeroHeightDraw} {x y : RegIdx} {n : Fin 16} :
    (Instr.drw x y n).wellFormed zh = true ↔ ¬(idxNibble n = 0 ∧ zh = .unknown) := by
  rw [idxNibble_eq_zero_iff]
  cases zh <;> simp [Instr.wellFormed]

theorem decode_encode_drw (zh : ZeroHeightDraw) (x y : RegIdx) (n : Fin 16) :
    decode zh (encode (.drw x y n)) =
      if (Instr.drw x y n).wellFormed zh then .ok (.drw x y n) else .error (.unknown (encode (.drw x y n))) := by
  by_cases h : idxNibble n = 0 ∧ zh = .unknown
  · rw [if_neg (fun hwf => wellFormed_drw_iff.1 hwf h)]
    simp [decode, encode, decodeDraw, h]
  · rw [if_pos (wellFormed_drw_iff.2 h)]
    simpa [decode, encode, decodeDraw] using h

/-! ### The round trip -/

/-- The fields that the decoder reads from an instruction's layout are the ones that the encoder put there. -/
theorem decode_encode {zh : ZeroHeightDraw} {i : Instr} (h : i.wellFormed zh = true) :
    decode zh (encode i) = .ok i := by
  cases i with
  | cls | ret => rfl
  | jp | call | ldI | jpV0 | seImm | sneImm | ldImm | addImm | rnd | seReg | sneReg => simp [decode, encode]
  | ldReg | orReg | andReg | xorReg | addReg | sub | shr | subn | shl => simp [decode, encode, decodeAlu]
  | drw x y n => rw [decode_encode_drw, if_pos h]
  | skp | sknp => simp [decode, encode, decodeKey]
  | ldVxDt | ldVxK | ldDtVx | ldStVx | addIVx | ldFVx | ldBVx | ldMemVx | ldVxMem =>
    simp [decode, encode, decodeMisc]

/-- The decoder answers well-formed instructions only: a draw that it answers passed its test of the height. -/
theorem wellFormed_of_decode {zh : ZeroHeightDraw} {op : Opcode} {i : Instr} (h : decode zh op = .ok i) :
    i.wellFormed zh = true := by
  by_contra hwf
  obtain rfl := encode_of_decode h
  cases i with
  | drw x y n => rw [decode_encode_drw, if_neg hwf] at h; cases h
  | _ => exact hwf rfl

/-- Settles O12: each group of the decoder reads back the fields of its layout, and a draw passes the test of its height. -/
theorem decodeOfEncodeIsTheInstruction : Obligations.DecodeOfEncodeIsTheInstruction := fun _ _ => decode_encode

/-- Settles O13: every group of the decoder keeps all the fields of the opcode that it does not fix, and the draw that a
round trip would reject is not answered. -/
theorem decodedOpcodesAreEncodings : Obligations.DecodedOpcodesAreEncodings := fun _ _ _ h =>
  ⟨wellFormed_of_decode h, encode_of_decode h⟩

/-! ### The opcodes that each group rejects -/

theorem fieldN_eq_zero_iff (op : Opcode) : fieldN op = 0 ↔ op.toNat % 16 = 0 := by
  rw [← fieldN_toNat, ← BitVec.toNat_inj]
  rfl

/-- A group that tests one condition and answers one instruction. -/
theorem ite_rejects_iff {c : Prop} [Decidable c] {i : Instr} {d : DecodeError} :
    (∀ j, (if c then .ok i else .error d : Except DecodeError Instr) ≠ .ok j) ↔ ¬c := by
  split <;> simp [*]

theorem decodeZero_rejects_iff {op : Opcode} :
    (∀ i, decodeZero op ≠ .ok i) ↔ op.toNat ≠ 0x00E0 ∧ op.toNat ≠ 0x00EE := by
  unfold decodeZero
  split
  case isTrue hop => simp [hop]
  case isFalse hcls =>
    rw [ite_rejects_iff]
    bv_omega

theorem decodeDraw_rejects_iff {zh : ZeroHeightDraw} {op : Opcode} :
    (∀ i, decodeDraw zh op ≠ .ok i) ↔ op.toNat % 16 = 0 ∧ zh = .unknown := by
  rw [← fieldN_eq_zero_iff]
  unfold decodeDraw
  split
  case isTrue h | isFalse h => simpa using h

theorem decodeAlu_rejects_iff {op : Opcode} {x y : RegIdx} {n : BitVec 4} :
    (∀ i, decodeAlu op x y n ≠ .ok i) ↔ (0x8 ≤ n.toNat ∧ n.toNat ≤ 0xD) ∨ n.toNat = 0xF := by
  unfold decodeAlu
  split
  case h_10 =>
    refine iff_of_true (fun _ => nofun) ?_
    revert n
    decide
  all_goals simp

theorem decodeKey_rejects_iff {op : Opcode} {x : RegIdx} {nn : Byte} :
    (∀ i, decodeKey op x nn ≠ .ok i) ↔ nn.toNat ≠ 0x9E ∧ nn.toNat ≠ 0xA1 := by
  unfold decodeKey
  split
  case h_3 => simp_all [← BitVec.toNat_inj]
  all_goals simp

theorem decodeMisc_rejects_iff {op : Opcode} {x : RegIdx} {nn : Byte} :
    (∀ i, decodeMisc op x nn ≠ .ok i) ↔
      nn.toNat ≠ 0x07 ∧ nn.toNat ≠ 0x0A ∧ nn.toNat ≠ 0x15 ∧ nn.toNat ≠ 0x18 ∧ nn.toNat ≠ 0x1E ∧ nn.toNat ≠ 0x29 ∧
        nn.toNat ≠ 0x33 ∧ nn.toNat ≠ 0x55 ∧ nn.toNat ≠ 0x65 := by
  unfold decodeMisc
  split
  case h_10 => simp_all [← BitVec.toNat_inj]
  all_goals simp

/-- Settles O14: a split on the top nibble picks one group of the decoder and one row of R97's table. -/
theorem unknownOpcodesAreTheListedGroups : Obligations.UnknownOpcodesAreTheListedGroups := by
  intro zh op t n nn
  simp only [t, n, nn, ← fieldT_toNat]
  unfold decode
  split
  case h_1 ht => simp [ht, decodeZero_rejects_iff]
  case h_6 ht | h_10 ht =>
    rw [ite_rejects_iff, fieldN_eq_zero_iff]
    simp [ht]
  case h_9 ht => simp [ht, decodeAlu_rejects_iff, fieldN_toNat]
  case h_14 ht => simp [ht, decodeDraw_rejects_iff]
  case h_15 ht => simp [ht, decodeKey_rejects_iff, fieldNN_toNat]
  case h_16 ht => simp [ht, decodeMisc_rejects_iff, fieldNN_toNat]
  case h_2 ht | h_3 ht | h_4 ht | h_5 ht | h_7 ht | h_8 ht | h_11 ht | h_12 ht | h_13 ht => simp [ht]
  case h_17 =>
    exfalso
    generalize fieldT op = t at *
    revert t
    decide

/-- Settles O15, by evaluating the decoder on the ten words. -/
theorem sampleWordsDecode : Obligations.SampleWordsDecode := by
  unfold Obligations.SampleWordsDecode
  decide

end Sys2Proof
end

section
/-! The cycle, stage by stage (R130 to R138): the halted check, fetch, decode, execute and the tick. -/

namespace Sys2Proof.Machine

/-! ### Every step answers -/

/-- Settles O11: a cycle answers a next state whichever stage ends it, and `step` and `stepResult` are its two parts. -/
theorem everyStepAnswersAnOutcome : Obligations.EveryStepAnswersAnOutcome := by
  intro s
  obtain ⟨⟨t, r⟩, hc⟩ := cycle_answers s
  exact ⟨t, r, hc, step_of_cycle hc, stepResult_of_cycle hc⟩

/-! ### The halted check -/

/-- Settles O6: the halted check is the first stage of a cycle. -/
theorem haltedStepReturnsTheSameError : Obligations.HaltedStepReturnsTheSameError := by
  intro s r hs
  exact ⟨cycle_halted hs, step_of_cycle (cycle_halted hs)⟩

/-! ### Fetch -/

theorem fetch_inside {s : State} (h : s.pc.toNat + 1 < 0x1000) :
    fetch s = .ok (composeOpcode (s.byteAt s.pc.toNat) (s.byteAt (s.pc.toNat + 1))) :=
  (fetch_ok_iff s _).2 ⟨h, composeOpcode_toNat _ _⟩

theorem fetch_beyond_memory {s : State} (h : 0x1000 ≤ s.pc.toNat) :
    fetch s = .error (.addressOutOfRange s.pc.toNat) := by
  rw [fetch_error (Nat.le_succ_of_le h), if_pos h]

theorem fetch_at_last_byte {s : State} (h : s.pc.toNat = 0xFFF) : fetch s = .error (.addressOutOfRange 0x1000) := by
  rw [fetch_error (by rw [h]), if_neg (by rw [h]; decide)]

theorem step_of_fetch_error {s : State} {e : StepError} (hs : s.halted = none) (hf : fetch s = .error e) :
    step s = .next (s.haltedWith e none) :=
  step_of_cycle (cycle_fetch_error hs hf)

/-- Settles O7: pc + 1 is inside memory, or pc itself is outside, or pc is the last byte and 0x1000 is the first address
outside. -/
theorem fetchReadsTwoBytesOrRaises : Obligations.FetchReadsTwoBytesOrRaises := by
  refine ⟨fun s h => ?inside, fun s hs h => ?beyond, fun s hs h => ?last⟩
  case inside => exact ⟨_, fetch_inside h, composeOpcode_toNat _ _⟩
  case beyond => exact step_of_fetch_error hs (fetch_beyond_memory h)
  case last => exact step_of_fetch_error hs (fetch_at_last_byte h)

/-! ### Decode -/

/-- Settles O8: an opcode that decodes to no instruction is rejected, and the cycle ends there. -/
theorem unknownOpcodeIsReported : Obligations.UnknownOpcodeIsReported := by
  intro s op hs hf hunknown
  cases hd : decode s.cfg.zeroHeightDraw op with
  | error d => exact cycle_unknown hs ((fetch_ok_iff s op).2 hf) hd
  | ok i => exact absurd hd (hunknown i)

/-! ### Execute and the tick -/

/-- A running machine executes the instruction it fetches, and then finishes the step (R137). -/
theorem cycle_of_fetches {s t : State} {op : Opcode} {i : Instr} (hs : s.halted = none) (hf : s.Fetches op)
    (hd : decode s.cfg.zeroHeightDraw op = .ok i) (he : exec i s = .next t) : cycle s = .next (finish t) :=
  cycle_exec hs ((fetch_ok_iff s op).2 hf) hd he

/-- Settles O5, by the two ends of a step: the tick, or the error that the instruction raised. -/
theorem stepRunsTheDecodedInstruction : Obligations.StepRunsTheDecodedInstruction := by
  intro s t op i hs hf hd he
  have hc : cycle s = .next (finish t) := cycle_of_fetches hs hf hd he
  refine ⟨fun hok => ?ticks, fun herr => ?raised⟩
  case ticks => exact step_of_cycle (finish_ok hok ▸ hc)
  case raised =>
    obtain ⟨r, hr⟩ := Option.ne_none_iff_exists'.1 herr
    exact step_of_cycle (finish_err hr ▸ hc)

/-- Settles O10: the end of a step ticks both timers and nothing else, and an error ends it without a tick. -/
theorem successfulStepTicksTheTimers : Obligations.SuccessfulStepTicksTheTimers := by
  intro s t op i hs hf hd he
  have hc : cycle s = .next (finish t) := cycle_of_fetches hs hf hd he
  refine ⟨fun hok => ⟨t.tick, ?cycle, ?dt, ?st, ?frame⟩, fun r hr => ?raised⟩
  case cycle => rw [hc, finish_ok hok, State.toneExpires_iff]
  case dt => exact tickTimer_toNat t.dt
  case st => exact tickTimer_toNat t.st
  case frame => exact t.tick_onlyChanges
  case raised => rw [hc, finish_err hr]

/-! ### A failing step -/

/-- Settles O9: a cycle that returns an error changed only `halted`, and its record names pc unless it was there before. -/
theorem failingStepChangesOnlyHalted : Obligations.FailingStepChangesOnlyHalted := by
  intro s t r hc
  rcases cycle_outcome hc with ⟨rec, hr, rfl, hrec⟩ | ⟨i, u, -, -, hok⟩
  · cases hr
    refine ⟨rfl, s.withHalted_onlyChanges _, fun hs => ?pc⟩
    case pc =>
      rcases hrec with hbefore | ⟨-, hpc⟩
      · cases hs.symm.trans hbefore
      · exact hpc
  · cases hok

end Sys2Proof.Machine
end

section
/-! RET, JP, CALL and JP V0 (R160 to R164). -/

namespace Sys2Proof.Machine

/-! ### Jump targets as numbers -/

theorem literalAddr_toNat (nnn : BitVec 12) : (literalAddr nnn).toNat = nnn.toNat :=
  BitVec.toNat_setWidth_of_le (by decide)

theorem byteAddr_toNat (b : Byte) : (byteAddr b).toNat = b.toNat :=
  BitVec.toNat_setWidth_of_le (by decide)

/-- The target of JP V0 wraps at 2^16 and nowhere below it (R163). -/
theorem byteAddr_add_literalAddr_toNat (b : Byte) (nnn : BitVec 12) :
    (byteAddr b + literalAddr nnn).toNat = (b.toNat + nnn.toNat) % 65536 := by
  rw [BitVec.toNat_add, byteAddr_toNat, literalAddr_toNat]

/-! ### JP and JP V0 -/

theorem encode_jp_toNat (nnn : BitVec 12) : (encode (.jp nnn)).toNat = 0x1000 + nnn.toNat :=
  layoutNNN_toNat 0x1 nnn

theorem encode_jpV0_toNat (nnn : BitVec 12) : (encode (.jpV0 nnn)).toNat = 0xB000 + nnn.toNat :=
  layoutNNN_toNat 0xB nnn

theorem exec_jp (nnn : BitVec 12) (s : State) : exec (.jp nnn) s = .next (s.jump (literalAddr nnn)) := rfl

theorem exec_jpV0 (nnn : BitVec 12) (s : State) :
    exec (.jpV0 nnn) s = .next (s.jump (byteAddr (s.reg 0) + literalAddr nnn)) := rfl

/-- Settles O17: each of the two is one jump, which changes pc alone, and its target is the number that the rule gives. -/
theorem jumpsSetThePc : Obligations.JumpsSetThePc := by
  intro nnn s
  refine ⟨encode_jp_toNat nnn, encode_jpV0_toNat nnn, ?jp, ?jpV0⟩
  case jp => exact ⟨_, exec_jp nnn s, literalAddr_toNat nnn, s.jump_onlyChanges _⟩
  case jpV0 => exact ⟨_, exec_jpV0 nnn s, byteAddr_add_literalAddr_toNat (s.reg 0) nnn, s.jump_onlyChanges _⟩

/-! ### RET -/

theorem encode_ret : encode .ret = 0x00EE := by decide

/-- R160 with `k + 1` entries in use. -/
theorem exec_ret_resumes {s : State} {k : Nat} (hk : k < 16) (hsp : s.sp.val = k + 1) :
    ∃ t, exec .ret s = .next t ∧ t.pc.toNat = (s.stack[k].toNat + 2) % 65536 ∧ t.sp.val = k ∧
      s.OnlyChanges t [.sp, .pc] :=
  ⟨_, exec_ret_of_entry k hk hsp, BitVec.toNat_add s.stack[k] 2, rfl,
    (s.withSp_onlyChanges _).trans (State.jump_onlyChanges _ _)⟩

/-- Settles O16, by the two cases of a pop: an entry in use, which the frame leaves in place, or an empty stack. -/
theorem returnResumesAfterTheCall : Obligations.ReturnResumesAfterTheCall := by
  refine ⟨congrArg BitVec.toNat encode_ret, fun s k hsp => ?resumes, fun s hsp => ?underflow⟩
  case resumes => exact exec_ret_resumes k.isLt hsp
  case underflow => exact encode_ret ▸ exec_ret_of_empty hsp

/-! ### CALL -/

theorem encode_call_toNat (nnn : BitVec 12) : (encode (.call nnn)).toNat = 0x2000 + nnn.toNat :=
  layoutNNN_toNat 0x2 nnn

/-- R162 with `k` entries in use. -/
theorem exec_call_pushes (nnn : BitVec 12) {s : State} {k : Fin 16} (hsp : s.sp.val = k.val) :
    ∃ t, exec (.call nnn) s = .next t ∧ t.stack[k.val] = s.pc ∧ t.sp.val = k.val + 1 ∧ t.pc.toNat = nnn.toNat ∧
      s.OnlyChanges t [.stackEntry k, .sp, .pc] := by
  have hroom : s.sp.val < 16 := hsp ▸ k.isLt
  obtain rfl : k = ⟨s.sp.val, hroom⟩ := Fin.ext hsp.symm
  exact ⟨_, exec_call_of_room nnn hroom, Vector.getElem_set_self hroom, rfl, literalAddr_toNat nnn,
    ((s.withStackEntry_onlyChanges _ s.pc).trans (State.withSp_onlyChanges _ _)).trans (State.jump_onlyChanges _ _)⟩

/-- Settles O18, by the two cases of a push: a free entry, or a full stack. -/
theorem callPushesItsOwnAddress : Obligations.CallPushesItsOwnAddress := by
  intro nnn s
  refine ⟨encode_call_toNat nnn, fun k hsp => ?pushes, fun hfull => ?overflow⟩
  case pushes => exact exec_call_pushes nnn hsp
  case overflow => exact ⟨encode (.call nnn), encode_call_toNat nnn, exec_call_of_full nnn (by omega)⟩

/-! ### A CALL and its RET -/

/-- Settles O19: the RET pops the entry that the CALL pushed, because whatever ran between them kept sp and the entries
below it. -/
theorem returnAfterCallContinuesAfterIt : Obligations.ReturnAfterCallContinuesAfterIt := by
  intro nnn s t u hroom hcall husp hkept
  obtain ⟨t', hcall', hpushed, htsp, -, -⟩ := exec_call_pushes nnn (s := s) (k := ⟨s.sp.val, hroom⟩) rfl
  cases hcall.symm.trans hcall'
  have hentry : u.stack[s.sp.val] = s.pc :=
    (hkept ⟨s.sp.val, hroom⟩ (htsp ▸ Nat.lt_succ_self s.sp.val)).trans hpushed
  obtain ⟨w, hret, hpc, hwsp, -⟩ := exec_ret_resumes (s := u) hroom (husp ▸ htsp)
  exact ⟨w, hret, hentry ▸ hpc, Fin.ext hwsp⟩

end Sys2Proof.Machine
end

section
/-! SUPPORT. The layouts that hold register indices, as numbers (R92). -/

namespace Sys2Proof

theorem layoutXNN_idxNibble_toNat (t : BitVec 4) (x : RegIdx) (nn : Byte) :
    (layoutXNN t (idxNibble x) nn).toNat = t.toNat * 4096 + x.val * 256 + nn.toNat := by
  rw [layoutXNN_toNat, idxNibble_toNat]

theorem layoutXYN_idxNibble_toNat (t : BitVec 4) (x y : RegIdx) (n : BitVec 4) :
    (layoutXYN t (idxNibble x) (idxNibble y) n).toNat = t.toNat * 4096 + x.val * 256 + y.val * 16 + n.toNat := by
  rw [layoutXYN_toNat, idxNibble_toNat, idxNibble_toNat]

end Sys2Proof
end

section
/-! The skips on registers: SE and SNE, with a literal and with a register (R180 to R183). -/

namespace Sys2Proof.Machine

/-! ### Encodings -/

theorem encode_seImm_toNat (x : RegIdx) (nn : Byte) :
    (encode (.seImm x nn)).toNat = 0x3000 + x.val * 256 + nn.toNat := layoutXNN_idxNibble_toNat 0x3 x nn

theorem encode_sneImm_toNat (x : RegIdx) (nn : Byte) :
    (encode (.sneImm x nn)).toNat = 0x4000 + x.val * 256 + nn.toNat := layoutXNN_idxNibble_toNat 0x4 x nn

theorem encode_seReg_toNat (x y : RegIdx) :
    (encode (.seReg x y)).toNat = 0x5000 + x.val * 256 + y.val * 16 := layoutXYN_idxNibble_toNat 0x5 x y 0

theorem encode_sneReg_toNat (x y : RegIdx) :
    (encode (.sneReg x y)).toNat = 0x9000 + x.val * 256 + y.val * 16 := layoutXYN_idxNibble_toNat 0x9 x y 0

/-! ### The two advances -/

/-- `skip_if(c)` as a number: an advance by 4 or by 2 that wraps at 2^16 (R9). -/
theorem State.skipIf_pc_toNat (s : State) (c : Bool) :
    (s.skipIf c).pc.toNat = (s.pc.toNat + if c then 4 else 2) % 65536 := by
  cases c
  case false => exact BitVec.toNat_add s.pc 2
  case true => exact BitVec.toNat_add s.pc 4

theorem State.skipIf_eq_pc_toNat (s : State) (a b : Byte) :
    (s.skipIf (a == b)).pc.toNat = (s.pc.toNat + if a.toNat = b.toNat then 4 else 2) % 65536 := by
  simp only [State.skipIf_pc_toNat, beq_iff_eq, BitVec.toNat_inj]

theorem State.skipIf_ne_pc_toNat (s : State) (a b : Byte) :
    (s.skipIf (a != b)).pc.toNat = (s.pc.toNat + if a.toNat = b.toNat then 2 else 4) % 65536 := by
  simp only [State.skipIf_pc_toNat, bne_iff_ne, ite_not, BitVec.toNat_inj]

/-! ### The four skips -/

theorem exec_seImm (x : RegIdx) (nn : Byte) (s : State) :
    exec (.seImm x nn) s = .next (s.skipIf (s.reg x == nn)) := rfl

theorem exec_sneImm (x : RegIdx) (nn : Byte) (s : State) :
    exec (.sneImm x nn) s = .next (s.skipIf (s.reg x != nn)) := rfl

theorem exec_seReg (x y : RegIdx) (s : State) :
    exec (.seReg x y) s = .next (s.skipIf (s.reg x == s.reg y)) := rfl

theorem exec_sneReg (x y : RegIdx) (s : State) :
    exec (.sneReg x y) s = .next (s.skipIf (s.reg x != s.reg y)) := rfl

/-- Settles O20: each of the four is one `skip_if`, which changes pc alone, on the equality of two bytes or its negation. -/
theorem skipsAdvanceByFourOrTwo : Obligations.SkipsAdvanceByFourOrTwo := by
  intro x y nn s
  refine ⟨⟨encode_seImm_toNat x nn, encode_sneImm_toNat x nn, encode_seReg_toNat x y, encode_sneReg_toNat x y⟩,
    ?seImm, ?sneImm, ?seReg, ?sneReg⟩
  case seImm => exact ⟨_, exec_seImm x nn s, s.skipIf_eq_pc_toNat _ _, s.skipIf_onlyChanges _⟩
  case sneImm => exact ⟨_, exec_sneImm x nn s, s.skipIf_ne_pc_toNat _ _, s.skipIf_onlyChanges _⟩
  case seReg => exact ⟨_, exec_seReg x y s, s.skipIf_eq_pc_toNat _ _, s.skipIf_onlyChanges _⟩
  case sneReg => exact ⟨_, exec_sneReg x y s, s.skipIf_ne_pc_toNat _ _, s.skipIf_onlyChanges _⟩

end Sys2Proof.Machine
end

section
/-! The register loads and the 8-group ALU (R200 to R210). -/

namespace Sys2Proof.Machine

/-! ### Encodings and arithmetic as numbers -/

/-- The opcodes of the 8-group differ in their low nibble (R96). -/
theorem layoutXYN_alu_toNat (x y : RegIdx) (n : BitVec 4) :
    (layoutXYN 0x8 (idxNibble x) (idxNibble y) n).toNat = 0x8000 + n.toNat + x.val * 256 + y.val * 16 := by
  rw [layoutXYN_idxNibble_toNat, show (0x8 : BitVec 4).toNat = 8 from rfl]
  omega

theorem byte_sub_toNat (a b : Byte) : (a - b).toNat = (a.toNat + 256 - b.toNat) % 256 := by
  have hb := b.isLt
  rw [BitVec.toNat_sub]
  congr 1
  omega

theorem byte_shr_toNat (a : Byte) : (a >>> 1).toNat = a.toNat / 2 :=
  (BitVec.toNat_ushiftRight a 1).trans (Nat.shiftRight_eq_div_pow a.toNat 1)

theorem byte_shl_toNat (a : Byte) : (a <<< 1).toNat = a.toNat * 2 % 256 := by
  rw [BitVec.toNat_shiftLeft, Nat.shiftLeft_eq]

/-! ### What each instruction does to the state -/

theorem exec_ldImm (x : RegIdx) (nn : Byte) (s : State) :
    exec (.ldImm x nn) s = .next ((s.setReg x nn).advance 2) := rfl

theorem exec_addImm (x : RegIdx) (nn : Byte) (s : State) :
    exec (.addImm x nn) s = .next ((s.setReg x (s.reg x + nn)).advance 2) := rfl

theorem exec_ldReg (x y : RegIdx) (s : State) :
    exec (.ldReg x y) s = .next ((s.setReg x (s.reg y)).advance 2) := rfl

theorem exec_orReg (x y : RegIdx) (s : State) :
    exec (.orReg x y) s = .next ((s.setReg x (s.reg x ||| s.reg y)).advance 2) := rfl

theorem exec_andReg (x y : RegIdx) (s : State) :
    exec (.andReg x y) s = .next ((s.setReg x (s.reg x &&& s.reg y)).advance 2) := rfl

theorem exec_xorReg (x y : RegIdx) (s : State) :
    exec (.xorReg x y) s = .next ((s.setReg x (s.reg x ^^^ s.reg y)).advance 2) := rfl

theorem exec_addReg (x y : RegIdx) (s : State) :
    exec (.addReg x y) s =
      .next ((s.setRegAndFlag x (s.reg x + s.reg y) (carryFlag (s.reg x) (s.reg y))).advance 2) := rfl

theorem exec_sub (x y : RegIdx) (s : State) :
    exec (.sub x y) s =
      .next ((s.setRegAndFlag x (s.reg x - s.reg y) (notBorrowFlag (s.reg x) (s.reg y))).advance 2) := rfl

theorem exec_subn (x y : RegIdx) (s : State) :
    exec (.subn x y) s =
      .next ((s.setRegAndFlag x (s.reg y - s.reg x) (notBorrowFlag (s.reg y) (s.reg x))).advance 2) := rfl

theorem IsShiftOperand.eq_shiftOperand {s : State} {x y : RegIdx} {o : Byte} (h : IsShiftOperand s x y o) :
    o = s.shiftOperand x y := by
  obtain ⟨hsource, ho⟩ | ⟨hsource, ho⟩ := h <;> simp only [State.shiftOperand, hsource, ho]

theorem exec_shr {s : State} {x y : RegIdx} {o : Byte} (h : IsShiftOperand s x y o) :
    exec (.shr x y) s = .next ((s.setRegAndFlag x (o >>> 1) (shiftedOutLow o)).advance 2) := by
  cases h.eq_shiftOperand
  rfl

theorem exec_shl {s : State} {x y : RegIdx} {o : Byte} (h : IsShiftOperand s x y o) :
    exec (.shl x y) s = .next ((s.setRegAndFlag x (o <<< 1) (shiftedOutHigh o)).advance 2) := by
  cases h.eq_shiftOperand
  rfl

/-! ### Instructions that write one register -/

/-- Settles O21: each of the three is one register write and an advance. -/
theorem loadsAndImmediateAddWriteOneRegister : Obligations.LoadsAndImmediateAddWriteOneRegister := by
  intro x y nn s
  refine ⟨⟨layoutXNN_idxNibble_toNat 0x6 x nn, layoutXNN_idxNibble_toNat 0x7 x nn, layoutXYN_alu_toNat x y 0x0⟩,
    ⟨_, exec_ldImm x nn s, s.reg_setReg_same x _, rfl, s.setReg_advance_onlyChanges x _⟩,
    ⟨_, exec_addImm x nn s, ?sum, rfl, s.setReg_advance_onlyChanges x _⟩,
    ⟨_, exec_ldReg x y s, s.reg_setReg_same x _, rfl, s.setReg_advance_onlyChanges x _⟩⟩
  case sum => rw [State.reg_advance, State.reg_setReg_same, BitVec.toNat_add]

/-- Settles O22: each of the three is one register write and an advance, and the byte written is a bitwise operation of
BitVec. -/
theorem logicOperationsActBitwise : Obligations.LogicOperationsActBitwise := by
  intro x y s
  refine ⟨⟨layoutXYN_alu_toNat x y 0x1, layoutXYN_alu_toNat x y 0x2, layoutXYN_alu_toNat x y 0x3⟩,
    ⟨_, exec_orReg x y s, fun b => ?or, rfl, s.setReg_advance_onlyChanges x _⟩,
    ⟨_, exec_andReg x y s, fun b => ?and, rfl, s.setReg_advance_onlyChanges x _⟩,
    ⟨_, exec_xorReg x y s, fun b => ?xor, rfl, s.setReg_advance_onlyChanges x _⟩⟩
  case or => rw [State.reg_advance, State.reg_setReg_same, BitVec.getLsbD_or]
  case and => rw [State.reg_advance, State.reg_setReg_same, BitVec.getLsbD_and]
  case xor => rw [State.reg_advance, State.reg_setReg_same, BitVec.getLsbD_xor]

/-! ### Instructions that write a result and then the flag -/

/-- VF is written last, so it holds the flag even when the destination is VF itself (R139). -/
@[simp] theorem State.reg_setRegAndFlag_flagReg (s : State) (x : RegIdx) (result flag : Byte) :
    (s.setRegAndFlag x result flag).reg flagReg = flag := State.reg_setReg_same _ flagReg flag

theorem State.reg_setRegAndFlag_of_ne (s : State) {x : RegIdx} (result flag : Byte) (hx : x ≠ flagReg) :
    (s.setRegAndFlag x result flag).reg x = result := by
  rw [State.setRegAndFlag, State.reg_setReg_ne _ flag hx, State.reg_setReg_same]

/-- What R206 to R210 have in common: a result in Vx, its flag in VF, an advance, and the frame. -/
theorem exec_writes_result_and_flag {i : Instr} {s : State} {x : RegIdx} {result flag : Byte} {r f : Nat}
    (h : exec i s = .next ((s.setRegAndFlag x result flag).advance 2)) (hresult : result.toNat = r)
    (hflag : flag.toNat = f) :
    ∃ t, exec i s = .next t ∧ (x ≠ 15 → (t.reg x).toNat = r) ∧ (t.reg 15).toNat = f ∧ t.pc = s.pc + 2 ∧
      s.OnlyChanges t [.reg x, .reg 15, .pc] := by
  refine ⟨_, h, fun hx => ?result, ?flag, rfl, s.setRegAndFlag_advance_onlyChanges x result flag⟩
  case result => rw [State.reg_advance, s.reg_setRegAndFlag_of_ne result flag hx, hresult]
  case flag => rw [State.reg_advance, State.reg_setRegAndFlag_flagReg, hflag]

/-- Settles O23: the result is the sum of two bytes, and the flag is its carry. -/
theorem addSetsSumAndCarry : Obligations.AddSetsSumAndCarry := fun x y s =>
  ⟨layoutXYN_alu_toNat x y 0x4,
    exec_writes_result_and_flag (exec_addReg x y s) (BitVec.toNat_add _ _) (carryFlag_toNat _ _)⟩

/-- Settles O24: the result is the difference of two bytes, and the flag is its not-borrow; 8XY7 is 8XY5 with the operands
swapped. -/
theorem subtractsSetDifferenceAndNotBorrow : Obligations.SubtractsSetDifferenceAndNotBorrow := fun x y s =>
  ⟨⟨layoutXYN_alu_toNat x y 0x5, layoutXYN_alu_toNat x y 0x7⟩,
    exec_writes_result_and_flag (exec_sub x y s) (byte_sub_toNat _ _) (notBorrowFlag_toNat _ _),
    exec_writes_result_and_flag (exec_subn x y s) (byte_sub_toNat _ _) (notBorrowFlag_toNat _ _)⟩

/-- Settles O25: the result is the operand halved or doubled, and the flag is the bit that falls out at that end. -/
theorem shiftsMoveOneBitIntoVF : Obligations.ShiftsMoveOneBitIntoVF := fun x y _ o ho =>
  ⟨⟨layoutXYN_alu_toNat x y 0x6, layoutXYN_alu_toNat x y 0xE⟩,
    exec_writes_result_and_flag (exec_shr ho) (byte_shr_toNat o) (shiftedOutLow_toNat o),
    exec_writes_result_and_flag (exec_shl ho) (byte_shl_toNat o) (shiftedOutHigh_toNat o)⟩

end Sys2Proof.Machine
end

section
/-! The index register and memory transfer (R250 to R255). -/

namespace Sys2Proof.Machine

/-! ### Encodings and operands as numbers -/

/-- The opcodes of the F-group differ in their low byte (R96). -/
theorem layoutXNN_misc_toNat (x : RegIdx) (nn : Byte) :
    (layoutXNN 0xF (idxNibble x) nn).toNat = 0xF000 + nn.toNat + x.val * 256 :=
  (layoutXNN_idxNibble_toNat 0xF x nn).trans (Nat.add_right_comm _ _ _)

theorem encode_ldI_toNat (nnn : BitVec 12) : (encode (.ldI nnn)).toNat = 0xA000 + nnn.toNat :=
  layoutNNN_toNat 0xA nnn

theorem toNat_ofNat_of_lt {w n : Nat} (h : n < 2 ^ w) : (BitVec.ofNat w n).toNat = n :=
  (BitVec.toNat_ofNat n w).trans (Nat.mod_eq_of_lt h)

theorem glyphAddr_toNat (d : Fin 16) : (glyphAddr d).toNat = d.val * 5 := by
  have hd := d.isLt
  rw [glyphAddr, toNat_ofNat_of_lt (by omega), Nat.zero_add]

@[simp] theorem length_bcdDigits (v : Byte) : (bcdDigits v).length = 3 := rfl

theorem bcdDigits_toNat (v : Byte) :
    (bcdDigits v)[0].toNat = v.toNat / 100 ∧ (bcdDigits v)[1].toNat = v.toNat / 10 % 10 ∧
      (bcdDigits v)[2].toNat = v.toNat % 10 := by
  have hv := v.isLt
  exact ⟨toNat_ofNat_of_lt (by omega), toNat_ofNat_of_lt (by omega), toNat_ofNat_of_lt (by omega)⟩

/-- `incI` moves I as `LOADSTORE_INCREMENT_I` says, mod 2^16 (R254; D7). -/
theorem indexAfter_incIndex (cfg : Config) (b : Addr) (x : RegIdx) :
    IndexAfter cfg b x (incIndex cfg.loadStoreIncrement b x) := by
  have hx := x.isLt
  unfold IndexAfter
  cases cfg.loadStoreIncrement with
  | none => exact .inl ⟨rfl, rfl⟩
  | xPlus1 =>
    refine .inr (.inl ⟨rfl, ?_⟩)
    rw [incIndex, BitVec.toNat_add, toNat_ofNat_of_lt (by omega), Nat.add_assoc]
  | x =>
    refine .inr (.inr ⟨rfl, ?_⟩)
    rw [incIndex, BitVec.toNat_add, toNat_ofNat_of_lt (by omega)]

/-! ### The instructions that set I -/

theorem exec_ldI (nnn : BitVec 12) (s : State) :
    exec (.ldI nnn) s = .next ((s.setIndex (literalAddr nnn)).advance 2) := rfl

theorem exec_addIVx (x : RegIdx) (s : State) :
    exec (.addIVx x) s = .next ((s.setIndex (s.i + byteAddr (s.reg x))).advance 2) := rfl

theorem exec_ldFVx (x : RegIdx) (s : State) :
    exec (.ldFVx x) s = .next ((s.setIndex (glyphAddr (lowNibble (s.reg x)))).advance 2) := rfl

/-- Settles O27: each of the three sets I and advances, which changes I and pc alone, and the new I is the number that the
rule gives. -/
theorem indexRegisterWrites : Obligations.IndexRegisterWrites := by
  intro nnn x s
  refine ⟨⟨encode_ldI_toNat nnn, layoutXNN_misc_toNat x 0x1E, layoutXNN_misc_toNat x 0x29⟩,
    ⟨_, exec_ldI nnn s, literalAddr_toNat nnn, rfl, s.setIndex_advance_onlyChanges _⟩,
    ⟨_, exec_addIVx x s, ?sum, rfl, s.setIndex_advance_onlyChanges _⟩,
    ⟨_, exec_ldFVx x s, ?glyph, rfl, s.setIndex_advance_onlyChanges _⟩⟩
  case sum => rw [State.advance_i, State.setIndex_i, BitVec.toNat_add, byteAddr_toNat]
  case glyph => rw [State.advance_i, State.setIndex_i, glyphAddr_toNat, lowNibble_val]

/-! ### Write transfers -/

/-- A byte of a transfer reads back as it was written. -/
theorem State.byteAt_withBytes (s : State) (a : Nat) {bytes : List Byte} {k : Nat} (hk : k < bytes.length) :
    ({ s with mem := Memory.writeAll s.cfg.font s.mem a bytes } : State).byteAt (a + k) = bytes[k] := by
  have hin : a ≤ a + k ∧ a + k < a + bytes.length := by omega
  refine (Memory.read_writeAll ..).trans ((dif_pos hin).trans ?_)
  simp only [Nat.add_sub_cancel_left]

/-- An instruction made of a write transfer that meets an address that may not be written halts with the error of the
lowest one, and writes nothing (R69, R138). -/
theorem attempt_writeBytes_of_storeFails {i : Instr} {s : State} {a k : Nat} {bytes : List Byte} {e : StepError}
    {build : State → State} (hk : k < bytes.length) (hbefore : ∀ j, j < k → Writable s.cfg (a + j))
    (he : StoreFails s.cfg (a + k) e) :
    attempt i s ((writeBytes s a bytes).map build) = .next (s.haltedWith e (some (encode i))) := by
  rw [writeBytes_error bytes s a k e hk (fun j hj => (storeError_none_iff _ _).2 (hbefore j hj))
    ((storeError_some_iff _ _ _).2 he)]
  rfl

/-! ### FX33 -/

/-- The state that an FX33 which raises no error leaves (R253). -/
def State.withDigits (s : State) (x : RegIdx) : State :=
  ({ s with mem := Memory.writeAll s.cfg.font s.mem s.i.toNat (bcdDigits (s.reg x)) } : State).advance 2

theorem exec_ldBVx_of_writable {x : RegIdx} {s : State} (h : ∀ k, k < 3 → Writable s.cfg (s.i.toNat + k)) :
    exec (.ldBVx x) s = .next (s.withDigits x) := by
  rw [exec_ldBVx, writeBytes_ok (bcdDigits (s.reg x)) s s.indexBase fun k hk =>
    (storeError_none_iff _ _).2 (h k hk)]
  rfl

theorem State.byteAt_withDigits (s : State) (x : RegIdx) {k : Nat} (hk : k < 3) :
    (s.withDigits x).byteAt (s.i.toNat + k) = (bcdDigits (s.reg x))[k] :=
  s.byteAt_withBytes s.i.toNat hk

theorem State.withDigits_onlyChanges (s : State) (x : RegIdx) :
    s.OnlyChanges (s.withDigits x) [.byte s.i.toNat, .byte (s.i.toNat + 1), .byte (s.i.toNat + 2), .pc] := by
  refine ((s.withBytes_unchangedOutside _ _).trans (State.advance_onlyChanges _ 2)).mono ?_
  rintro p (⟨k, hk, rfl⟩ | hp)
  · rw [length_bcdDigits] at hk
    interval_cases k <;> simp
  · simp [List.mem_singleton.1 hp]

/-- Settles O28, by the two cases of a write transfer: the three digits land, or the lowest address that may not be written
decides the error. -/
theorem storeDecimalDigits : Obligations.StoreDecimalDigits := by
  intro x s
  obtain ⟨hhundreds, htens, hones⟩ := bcdDigits_toNat (s.reg x)
  refine ⟨layoutXNN_misc_toNat x 0x33, fun hw => ⟨_, exec_ldBVx_of_writable hw, ?hundreds, ?tens, ?ones, rfl,
    s.withDigits_onlyChanges x⟩, fun k e hk hbefore he => ?fails⟩
  case hundreds => exact (congrArg BitVec.toNat (s.byteAt_withDigits x (k := 0) (by decide))).trans hhundreds
  case tens => exact (congrArg BitVec.toNat (s.byteAt_withDigits x (k := 1) (by decide))).trans htens
  case ones => exact (congrArg BitVec.toNat (s.byteAt_withDigits x (k := 2) (by decide))).trans hones
  case fails => exact (exec_ldBVx x s).trans (attempt_writeBytes_of_storeFails hk hbefore he)

/-! ### FX55 -/

theorem State.dumped_unchangedOutside (s : State) (x : RegIdx) :
    s.UnchangedOutside (s.dumped x) fun p =>
      (∃ k, k ≤ x.val ∧ p = .byte (s.i.toNat + k)) ∨ p = .index ∨ p = .pc := by
  refine ((s.withBytes_unchangedOutside _ _).trans (State.setIndex_advance_onlyChanges _ _)).mono ?_
  rintro p (⟨k, hk, hp⟩ | hp)
  · rw [State.length_regsUpTo] at hk
    exact .inl ⟨k, Nat.le_of_lt_succ hk, hp⟩
  · exact .inr (by simpa using hp)

/-- Settles O29, by the two cases of a write transfer: V0 to Vx land, or the lowest address that may not be written decides
the error. -/
theorem registerDumpStoresAllOrNothing : Obligations.RegisterDumpStoresAllOrNothing := by
  intro x s
  refine ⟨layoutXNN_misc_toNat x 0x55, fun hw => ⟨s.dumped x, exec_ldMemVx_of_writable hw,
    fun k hk => s.byteAt_dumped hk, indexAfter_incIndex s.cfg s.i x, rfl, s.dumped_unchangedOutside x⟩,
    fun k e hk hbefore he => ?fails⟩
  case fails =>
    have hlen : k < (s.regsUpTo x).length := by
      rw [State.length_regsUpTo]
      exact Nat.lt_succ_of_le hk
    exact (exec_ldMemVx x s).trans (attempt_writeBytes_of_storeFails hlen hbefore he)

/-! ### FX65 -/

/-- The bytes that fall on V0 to Vx in a load from I upward (R255). -/
def State.bytesUpTo (s : State) (x : RegIdx) : List Byte :=
  (List.range (x.val + 1)).map fun k => s.byteAt (s.i.toNat + k)

@[simp] theorem State.length_bytesUpTo (s : State) (x : RegIdx) : (s.bytesUpTo x).length = x.val + 1 := by
  simp [State.bytesUpTo]

/-- The state that an FX65 which raises no error leaves (R255). -/
def State.loaded (s : State) (x : RegIdx) : State :=
  (({ s with v := loadRegs 0 (s.bytesUpTo x) s.v } : State).setIndex
    (incIndex s.cfg.loadStoreIncrement s.i x)).advance 2

theorem exec_ldVxMem_of_inside {x : RegIdx} {s : State} (h : s.i.toNat + x.val < 0x1000) :
    exec (.ldVxMem x) s = .next (s.loaded x) := by
  rw [exec_ldVxMem, readBytes_ok s (x.val + 1) s.indexBase h]
  rfl

theorem State.reg_loaded (s : State) {x k : RegIdx} (hk : k ≤ x) :
    (s.loaded x).reg k = s.byteAt (s.i.toNat + k.val) := by
  have hin : 0 ≤ k.val ∧ k.val < 0 + (s.bytesUpTo x).length := by
    rw [State.length_bytesUpTo]
    have := Fin.le_iff_val_le_val.1 hk
    omega
  refine (getElem_loadRegs _ 0 s.v k.val k.isLt).trans ((dif_pos hin).trans ?_)
  simp [State.bytesUpTo]

theorem State.loaded_unchangedOutside (s : State) (x : RegIdx) :
    s.UnchangedOutside (s.loaded x) fun p => (∃ k : RegIdx, k ≤ x ∧ p = .reg k) ∨ p = .index ∨ p = .pc := by
  refine ((s.withLoadedRegs_unchangedOutside _).trans (State.setIndex_advance_onlyChanges _ _)).mono ?_
  rintro p (⟨k, hk, hp⟩ | hp)
  · rw [State.length_bytesUpTo] at hk
    exact .inl ⟨k, Fin.le_iff_val_le_val.2 (Nat.le_of_lt_succ hk), hp⟩
  · exact .inr (by simpa using hp)

/-- Settles O30, by the two cases of a read transfer: V0 to Vx are loaded, or the lowest address outside memory decides the
error. -/
theorem registerLoadReadsAllOrNothing : Obligations.RegisterLoadReadsAllOrNothing := by
  intro x s
  refine ⟨layoutXNN_misc_toNat x 0x65, fun hin => ⟨s.loaded x, exec_ldVxMem_of_inside hin,
    fun k hk => s.reg_loaded hk, indexAfter_incIndex s.cfg s.i x, rfl, s.loaded_unchangedOutside x⟩,
    fun k hk hbefore hout => ?fails⟩
  case fails =>
    rw [exec_ldVxMem, readBytes_error s (x.val + 1) s.indexBase k (Nat.lt_succ_of_le hk) hbefore hout]
    rfl

end Sys2Proof.Machine
end

section
/-! The display: `framebuffer()`, CLS and DRW (R280 to R284). -/

namespace Sys2Proof.Machine

/-! ### The host's view -/

/-- `framebuffer()` is the rows of the display in one vector, where entry `i` is column `i mod 64` of row `i / 64`. -/
theorem State.framebuffer_eq_flatten (s : State) : s.framebuffer = s.fb.flatten.toList := by
  simp only [State.framebuffer, Vector.flatten, Vector.toList_mk, Array.toList_flatten, Array.toList_map, List.map_map]
  rfl

/-- Settles O4: the display is 32 rows of 64, so the row and the column of index r × 64 + c are r and c. -/
theorem framebufferIsRowMajor : Obligations.FramebufferIsRowMajor := by
  intro s
  rw [State.framebuffer_eq_flatten]
  refine ⟨Vector.length_toList, fun r c => ?_⟩
  have hr := r.isLt
  have hc := c.isLt
  have hrow : (r.val * 64 + c.val) / 64 = r.val := by omega
  have hcol : (r.val * 64 + c.val) % 64 = c.val := by omega
  rw [Vector.getElem?_toList, Vector.getElem?_eq_getElem (by omega), Vector.getElem_flatten]
  simp only [hrow, hcol]
  rfl

/-! ### CLS -/

theorem exec_cls (s : State) :
    exec .cls s = .next (({ s with fb := blankDisplay, dirty := true } : State).advance 2) := rfl

/-- Settles O31: CLS puts the blank display, whatever the buffer held. -/
theorem clearScreenBlanksTheDisplay : Obligations.ClearScreenBlanksTheDisplay :=
  ⟨by decide, fun s => ⟨_, exec_cls s, Display.pixel_blank, rfl, rfl, exec_cls_row (exec_cls s)⟩⟩

/-! ### DRW: its opcode and its outcome -/

theorem encode_drw_toNat (x y : RegIdx) (n : Fin 16) :
    (encode (.drw x y n)).toNat = 0xD000 + x.val * 256 + y.val * 16 + n.val :=
  (layoutXYN_idxNibble_toNat 0xD x y (idxNibble n)).trans (by rw [idxNibble_toNat]; rfl)

/-- The opcode DXY0 decodes only under `ZERO_HEIGHT_DRAW = empty` (R95; D8). -/
theorem decode_zero_height {op : Opcode} {x y : RegIdx} (h : op.toNat = 0xD000 + x.val * 256 + y.val * 16) :
    decode .unknown op = .error (.unknown op) ∧ decode .empty op = .ok (.drw x y 0) := by
  obtain rfl : op = encode (.drw x y 0) := BitVec.eq_of_toNat_eq (h.trans (encode_drw_toNat x y 0).symm)
  exact ⟨decode_encode_drw .unknown x y 0, decode_encode_drw .empty x y 0⟩

/-- The sprite bytes of a draw of height `n`, from I upward (R282). -/
def State.spriteRows (s : State) (n : Fin 16) : List Byte :=
  (List.range n.val).map fun r => s.byteAt (s.i.toNat + r)

/-- The bit of sprite row `r` and sprite column `c`: the most significant bit is the leftmost column (R280). -/
def State.spriteBit (s : State) (r c : Nat) : Bool := (s.byteAt (s.i.toNat + r)).getLsbD (7 - c)

/-- The state that a draw which raises no error leaves (R282). -/
def State.drawnSprite (s : State) (x y : RegIdx) (n : Fin 16) : State := drawSprite x y (s.spriteRows n) s

@[simp] theorem State.length_spriteRows (s : State) (n : Fin 16) : (s.spriteRows n).length = n.val := by
  simp [State.spriteRows]

theorem State.length_spriteRows_le (s : State) (n : Fin 16) : (s.spriteRows n).length ≤ 32 := by
  rw [State.length_spriteRows]
  omega

theorem State.getLsbD_spriteRows (s : State) {n : Fin 16} {r c : Nat} (hr : r < (s.spriteRows n).length) :
    (s.spriteRows n)[r].getLsbD (7 - c) = s.spriteBit r c := by
  simp [State.spriteRows, State.spriteBit]

/-- A read transfer of height 0 reads nothing, so it succeeds wherever I points. -/
theorem readBytes_spriteRows {s : State} {n : Fin 16} (h : ∀ r, r < n.val → s.i.toNat + r < 0x1000) :
    readBytes s s.indexBase n.val = .ok (s.spriteRows n) := by
  rcases readBytes_cases s n.val s.indexBase with ⟨-, hok⟩ | ⟨hn, hok⟩ | ⟨k, hk, -, hout, -⟩
  · exact hok
  · rw [hok, List.eq_nil_of_length_eq_zero ((s.length_spriteRows n).trans hn)]
  · exact absurd (h k hk) (Nat.not_lt.2 hout)

theorem exec_drw_of_inside {x y : RegIdx} {n : Fin 16} {s : State} (h : ∀ r, r < n.val → s.i.toNat + r < 0x1000) :
    exec (.drw x y n) s = .next (s.drawnSprite x y n) := by
  rw [exec_drw, readBytes_spriteRows h]
  rfl

theorem State.drawnSprite_unchangedOutside (s : State) (x y : RegIdx) (n : Fin 16) :
    s.UnchangedOutside (s.drawnSprite x y n) fun p =>
      (∃ r c, p = .pixel r c) ∨ p = .reg flagReg ∨ p = .dirty ∨ p = .pc := by
  refine (drawSprite_unchangedOutside x y _ s).mono fun p hp => ?_
  simpa only [List.mem_pair, or_assoc, or_left_comm] using hp

/-! ### The pixels that a draw toggles -/

/-- The landing pixel of R280, as the loops of the draw compute it. -/
theorem landsOn_iff {cx cy r c : Nat} {pr : Fin 32} {pcol : Fin 64} (hc : c < 8) :
    LandsOn cx cy r c pr pcol ↔ pr = Fin.ofNat 32 (cy + r) ∧ pcol = bitColumn cx (7 - c) := by
  rw [LandsOn, bitColumn, show 7 - (7 - c) = c by omega, Fin.ext_iff, Fin.ext_iff]
  rfl

theorem State.pixel_drawnSprite_of_landsOn (s : State) {x y : RegIdx} {n : Fin 16} {r c : Nat} {pr : Fin 32}
    {pcol : Fin 64} (hr : r < n.val) (hc : c < 8)
    (h : LandsOn (s.spriteColumn x) (s.spriteRow y) r c pr pcol) :
    (s.drawnSprite x y n).pixel pr pcol = (s.pixel pr pcol != s.spriteBit r c) := by
  obtain ⟨rfl, rfl⟩ := (landsOn_iff hc).1 h
  have hr' : r < (s.spriteRows n).length := by rwa [State.length_spriteRows]
  rw [← s.getLsbD_spriteRows hr']
  exact (drawRows_pixel _ _ _ (s.length_spriteRows_le n) _).1 r hr' (7 - c) (by omega)

theorem State.pixel_drawnSprite_of_not_landsOn (s : State) {x y : RegIdx} {n : Fin 16} {pr : Fin 32} {pcol : Fin 64}
    (h : ∀ r c, r < n.val → c < 8 → ¬ LandsOn (s.spriteColumn x) (s.spriteRow y) r c pr pcol) :
    (s.drawnSprite x y n).pixel pr pcol = s.pixel pr pcol := by
  refine (drawRows_pixel _ _ _ (s.length_spriteRows_le n) _).2 pr pcol fun r j hr hj hland => ?_
  rw [State.length_spriteRows] at hr
  refine h r (7 - j) hr (by omega) ((landsOn_iff (by omega)).2 ?_)
  rwa [show 7 - (7 - j) = j by omega]

/-- A 1 bit of the sprite lands on this pixel. -/
def State.SpriteToggles (s : State) (x y : RegIdx) (n : Fin 16) (pr : Fin 32) (pcol : Fin 64) : Prop :=
  ∃ r c, r < n.val ∧ c < 8 ∧ LandsOn (s.spriteColumn x) (s.spriteRow y) r c pr pcol ∧ s.spriteBit r c = true

/-- A draw changes exactly the pixels that a 1 bit lands on. -/
theorem State.pixel_drawnSprite_ne_iff (s : State) (x y : RegIdx) (n : Fin 16) (pr : Fin 32) (pcol : Fin 64) :
    (s.drawnSprite x y n).pixel pr pcol ≠ s.pixel pr pcol ↔ s.SpriteToggles x y n pr pcol := by
  constructor
  · intro hne
    by_contra htoggles
    refine hne ?_
    by_cases hland : ∃ r c, r < n.val ∧ c < 8 ∧ LandsOn (s.spriteColumn x) (s.spriteRow y) r c pr pcol
    · obtain ⟨r, c, hr, hc, hland⟩ := hland
      have hbit : s.spriteBit r c = false := Bool.eq_false_iff.2 fun hbit => htoggles ⟨r, c, hr, hc, hland, hbit⟩
      simp [s.pixel_drawnSprite_of_landsOn hr hc hland, hbit]
    · exact s.pixel_drawnSprite_of_not_landsOn fun r c hr hc h => hland ⟨r, c, hr, hc, h⟩
  · rintro ⟨r, c, hr, hc, hland, hbit⟩
    simp [s.pixel_drawnSprite_of_landsOn hr hc hland, hbit]

/-- Some pixel is toggled exactly when the sprite has a 1 bit: every sprite bit lands somewhere. -/
theorem State.exists_spriteToggles_iff (s : State) (x y : RegIdx) (n : Fin 16) :
    (∃ pr pcol, s.SpriteToggles x y n pr pcol) ↔
      ∃ r c, r < n.val ∧ c < 8 ∧ (s.byteAt (s.i.toNat + r)).getLsbD c = true := by
  constructor
  · rintro ⟨pr, pcol, r, c, hr, hc, -, hbit⟩
    exact ⟨r, 7 - c, hr, by omega, hbit⟩
  · rintro ⟨r, c, hr, hc, hbit⟩
    refine ⟨_, _, r, 7 - c, hr, by omega, (landsOn_iff (by omega)).2 ⟨rfl, rfl⟩, ?_⟩
    rwa [State.spriteBit, show 7 - (7 - c) = c by omega]

/-! ### The collision flag -/

theorem flagOf_eq_one_or_zero (b : Bool) : flagOf b = 1 ∨ flagOf b = 0 := by
  cases b
  case false => exact .inr rfl
  case true => exact .inl rfl

theorem flagOf_eq_one_iff (b : Bool) : flagOf b = 1 ↔ b = true := by
  cases b <;> decide

theorem State.reg_flag_drawnSprite (s : State) (x y : RegIdx) (n : Fin 16) :
    (s.drawnSprite x y n).reg 15 =
      flagOf (drawRows (s.spriteColumn x) (s.spriteRow y) (s.spriteRows n) (s.fb, false)).2 :=
  State.reg_setReg_same _ flagReg _

/-- The loops of a draw collide where a pixel that was on is toggled. -/
theorem State.drawRows_collided_iff (s : State) (x y : RegIdx) (n : Fin 16) :
    (drawRows (s.spriteColumn x) (s.spriteRow y) (s.spriteRows n) (s.fb, false)).2 = true ↔
      ∃ pr pcol, s.pixel pr pcol = true ∧ s.SpriteToggles x y n pr pcol := by
  rw [drawRows_collided _ _ _ (s.length_spriteRows_le n)]
  constructor
  · rintro (h | ⟨r, j, hr, hj, hbit, hon⟩)
    · cases h
    · have hcol : 7 - (7 - j) = j := by omega
      have hland : LandsOn (s.spriteColumn x) (s.spriteRow y) r (7 - j) _ _ := (landsOn_iff (by omega)).2 ⟨rfl, rfl⟩
      rw [hcol] at hland
      refine ⟨_, _, hon, r, 7 - j, s.length_spriteRows n ▸ hr, by omega, hland, ?_⟩
      rwa [← s.getLsbD_spriteRows hr, hcol]
  · rintro ⟨pr, pcol, hon, r, c, hr, hc, hland, hbit⟩
    obtain ⟨rfl, rfl⟩ := (landsOn_iff hc).1 hland
    have hr' : r < (s.spriteRows n).length := by rwa [State.length_spriteRows]
    exact .inr ⟨r, 7 - c, hr', by omega, (s.getLsbD_spriteRows hr').trans hbit, hon⟩

/-- VF reports whether the draw turned an on pixel off (R282). -/
theorem State.reg_flag_drawnSprite_eq_one_iff (s : State) (x y : RegIdx) (n : Fin 16) :
    (s.drawnSprite x y n).reg 15 = 1 ↔
      ∃ pr pcol, s.pixel pr pcol = true ∧ (s.drawnSprite x y n).pixel pr pcol = false := by
  rw [State.reg_flag_drawnSprite, flagOf_eq_one_iff, State.drawRows_collided_iff]
  refine exists_congr fun pr => exists_congr fun pcol => and_congr_right fun hon => ?_
  rw [← s.pixel_drawnSprite_ne_iff, hon, ne_eq, Bool.not_eq_true]

/-- Settles O32, by the two cases of the read transfer: the sprite is drawn pixel by pixel, or the lowest address outside
memory decides the error. -/
theorem drawXorsTheSpriteAndReportsCollision : Obligations.DrawXorsTheSpriteAndReportsCollision := by
  intro x y n s
  refine ⟨encode_drw_toNat x y n, fun op hop => decode_zero_height hop, fun hin => ⟨s.drawnSprite x y n,
    exec_drw_of_inside hin, fun r c pr pcol hr hc hland => s.pixel_drawnSprite_of_landsOn hr hc hland,
    fun pr pcol hmiss => s.pixel_drawnSprite_of_not_landsOn hmiss, ?flag,
    s.reg_flag_drawnSprite_eq_one_iff x y n, rfl, rfl, s.drawnSprite_unchangedOutside x y n⟩,
    fun r hr hbefore hout => ?fails⟩
  case flag =>
    rw [State.reg_flag_drawnSprite]
    exact flagOf_eq_one_or_zero _
  case fails =>
    rw [exec_drw, readBytes_error s n.val s.indexBase r hr hbefore hout]
    rfl

/-! ### Two draws in a row -/

/-- A second draw with the same origin registers toggles the same pixels: a draw changes neither I nor memory. -/
theorem State.spriteToggles_drawnSprite (s : State) {x y : RegIdx} {n : Fin 16}
    (hx : (s.drawnSprite x y n).reg x = s.reg x) (hy : (s.drawnSprite x y n).reg y = s.reg y) (pr : Fin 32)
    (pcol : Fin 64) : (s.drawnSprite x y n).SpriteToggles x y n pr pcol ↔ s.SpriteToggles x y n pr pcol := by
  rw [State.SpriteToggles, State.spriteColumn, State.spriteRow, hx, hy]
  rfl

/-- Toggled twice or not at all, a pixel is what it was. -/
theorem State.pixel_drawnSprite_twice (s : State) {x y : RegIdx} {n : Fin 16}
    (hx : (s.drawnSprite x y n).reg x = s.reg x) (hy : (s.drawnSprite x y n).reg y = s.reg y) (pr : Fin 32)
    (pcol : Fin 64) : ((s.drawnSprite x y n).drawnSprite x y n).pixel pr pcol = s.pixel pr pcol := by
  have hfirst := s.pixel_drawnSprite_ne_iff x y n pr pcol
  have hsecond := (s.drawnSprite x y n).pixel_drawnSprite_ne_iff x y n pr pcol
  rw [s.spriteToggles_drawnSprite hx hy] at hsecond
  by_cases htoggles : s.SpriteToggles x y n pr pcol
  · exact (Bool.eq_not.2 (hsecond.2 htoggles)).trans (Bool.not_eq.2 (hfirst.2 htoggles))
  · exact (not_ne_iff.1 (mt hsecond.1 htoggles)).trans (not_ne_iff.1 (mt hfirst.1 htoggles))

/-- Settles O33: the second draw toggles the same pixels back, so what it turns off is what the first turned on. -/
theorem drawingTwiceRestoresTheDisplay : Obligations.DrawingTwiceRestoresTheDisplay := by
  intro x y n s t hin hexec hx hy
  cases (exec_drw_of_inside hin).symm.trans hexec
  have hrestored := s.pixel_drawnSprite_twice hx hy
  have hflag : ((s.drawnSprite x y n).drawnSprite x y n).reg 15 = 1 ↔
      ∃ r c, s.pixel r c = false ∧ (s.drawnSprite x y n).pixel r c = true := by
    simp only [State.reg_flag_drawnSprite_eq_one_iff, hrestored, and_comm]
  refine ⟨_, exec_drw_of_inside hin, hrestored, hflag, fun hclear => ?_⟩
  rw [hflag, ← s.exists_spriteToggles_iff x y]
  refine exists_congr fun r => exists_congr fun c => ?_
  simp [← s.pixel_drawnSprite_ne_iff, hclear r c]

end Sys2Proof.Machine
end

section
/-! The keypad and the timers: the skips on a key, FX0A's choice of key, and the transfers to and from DT and ST (R300
to R306). -/

namespace Sys2Proof.Machine

/-! ### Every pressed key is some choice -/

/-- Settles O38: some draw chooses the key from the list of those pressed, and FX0A loads the key that is chosen. -/
theorem everyPressedKeyIsSomeChoice : Obligations.EveryPressedKeyIsSomeChoice := by
  intro x s k hk
  obtain ⟨choice, hchosen⟩ := chooseKey_surjective ((s.mem_pressedKeys k).2 hk)
  refine ⟨choice, ?_⟩
  calc ((keyWaitWith choice x s).reg x).toNat
      = (((s.setReg x (BitVec.ofNat 8 k.val)).advance 2).drawn.reg x).toNat := by rw [keyWaitWith_of_chosen x hchosen]
    _ = (BitVec.ofNat 8 k.val).toNat := by simp
    _ = k.val := keyIdx_byte_toNat k

/-! ### The selected key -/

/-- `key_index(a)` answers the key that `a` selects (R306). -/
theorem keyIndex_of_selected {cfg : Config} {a : Byte} {k : KeyIdx} (h : KeySelected cfg a k) :
    keyIndex cfg.keyIndex a = .ok k := by
  obtain ⟨hdigit, hk⟩ | ⟨habove, hpolicy, hk⟩ := h
  · rw [keyIndex_ok (Nat.lt_succ_of_le hdigit)]
    exact congrArg _ (Fin.ext hk.symm)
  · rw [hpolicy, keyIndex_lowNibble (Nat.not_lt.2 habove)]
    exact congrArg _ (Fin.ext ((lowNibble_val a).trans hk.symm))

/-! ### EX9E and EXA1 -/

/-- The opcodes of the E-group differ in their low byte (R96). -/
theorem layoutXNN_key_toNat (x : RegIdx) (nn : Byte) :
    (layoutXNN 0xE (idxNibble x) nn).toNat = 0xE000 + nn.toNat + x.val * 256 :=
  (layoutXNN_idxNibble_toNat 0xE x nn).trans (Nat.add_right_comm _ _ _)

theorem exec_skp_of_selected {x : RegIdx} {s : State} {k : KeyIdx} (h : KeySelected s.cfg (s.reg x) k) :
    exec (.skp x) s = .next (s.skipIf (s.key k)) := by
  rw [exec_skp, keyIndex_of_selected h]
  rfl

theorem exec_sknp_of_selected {x : RegIdx} {s : State} {k : KeyIdx} (h : KeySelected s.cfg (s.reg x) k) :
    exec (.sknp x) s = .next (s.skipIf (!s.key k)) := by
  rw [exec_sknp, keyIndex_of_selected h]
  rfl

theorem State.skipIf_not_pc_toNat (s : State) (c : Bool) :
    (s.skipIf (!c)).pc.toNat = (s.pc.toNat + if c then 2 else 4) % 65536 := by
  rw [State.skipIf_pc_toNat]
  cases c <;> rfl

/-- Settles O34: a register value that selects a key makes each of the two one `skip_if` on the level of that key or its
negation; one that selects none raises the error of `key_index`. -/
theorem keypadSkipsTestTheSelectedKey : Obligations.KeypadSkipsTestTheSelectedKey := by
  intro x s
  refine ⟨⟨layoutXNN_key_toNat x 0x9E, layoutXNN_key_toNat x 0xA1⟩, fun k hk => ⟨?skp, ?sknp⟩,
    fun habove hpolicy => ?fails⟩
  case skp => exact ⟨_, exec_skp_of_selected hk, s.skipIf_pc_toNat _, s.skipIf_onlyChanges _⟩
  case sknp => exact ⟨_, exec_sknp_of_selected hk, s.skipIf_not_pc_toNat _, s.skipIf_onlyChanges _⟩
  case fails =>
    have hnone : keyIndex s.cfg.keyIndex (s.reg x) = .error (.keyIndexOutOfRange (s.reg x)) := by
      rw [hpolicy, keyIndex_fault (Nat.not_lt.2 habove)]
    rw [exec_skp, exec_sknp, hnone]
    exact ⟨rfl, rfl⟩

/-! ### FX07, FX15 and FX18 -/

theorem exec_ldVxDt (x : RegIdx) (s : State) : exec (.ldVxDt x) s = .next ((s.setReg x s.dt).advance 2) := rfl

theorem exec_ldDtVx (x : RegIdx) (s : State) :
    exec (.ldDtVx x) s = .next (({ s with dt := s.reg x } : State).advance 2) := rfl

theorem exec_ldStVx (x : RegIdx) (s : State) :
    exec (.ldStVx x) s = .next (({ s with st := s.reg x } : State).advance 2) := rfl

/-- Settles O35: each of the three is one write, of a register or of a timer, and an advance. -/
theorem timerTransfersMoveOneByte : Obligations.TimerTransfersMoveOneByte := by
  intro x s
  refine ⟨⟨layoutXNN_misc_toNat x 0x07, layoutXNN_misc_toNat x 0x15, layoutXNN_misc_toNat x 0x18⟩,
    ?load, ?delay, ?sound⟩
  case load => exact ⟨_, exec_ldVxDt x s, s.reg_setReg_same x _, rfl, s.setReg_advance_onlyChanges x _⟩
  case delay =>
    exact ⟨_, exec_ldDtVx x s, rfl, rfl, (s.withDt_onlyChanges _).trans (State.advance_onlyChanges _ 2)⟩
  case sound =>
    exact ⟨_, exec_ldStVx x s, rfl, rfl, (s.withSt_onlyChanges _).trans (State.advance_onlyChanges _ 2)⟩

end Sys2Proof.Machine
end

section
/-! The state after reset, and the host's other writes (R333, R347, R348, R380, R381). -/

namespace Sys2Proof.Machine

/-! ### Reading the state after reset -/

theorem Memory.unlisted_font {font : Font} {a : Nat} (h : a < 0x50) : Memory.unlisted font a = font[a] := dif_pos h

theorem Memory.unlisted_zero (font : Font) {a : Nat} (h : 0x50 ≤ a) : Memory.unlisted font a = 0 :=
  dif_neg (Nat.not_lt.2 h)

section
variable (cfg : Config) (draws : Nat)

theorem State.byteAt_resetWith (a : Nat) :
    (State.resetWith cfg draws).byteAt a = Memory.unlisted cfg.font a := rfl

theorem State.reg_resetWith (k : RegIdx) : (State.resetWith cfg draws).reg k = 0 :=
  Vector.getElem_replicate k.isLt

theorem State.stack_resetWith (j : Fin 16) : (State.resetWith cfg draws).stack[j.val] = 0 :=
  Vector.getElem_replicate j.isLt

theorem State.key_resetWith (k : KeyIdx) : (State.resetWith cfg draws).key k = false :=
  Vector.getElem_replicate k.isLt

theorem State.pixel_resetWith (r : Fin 32) (c : Fin 64) : (State.resetWith cfg draws).pixel r c = false :=
  Display.pixel_blank r c

theorem State.inv_resetWith : (State.resetWith cfg draws).Inv where
  memory := Memory.wf_nil cfg.font
  pcBound := show (0x200 : Addr).toNat ≤ 0x10FE by decide
  stackBound j := by
    rw [State.stack_resetWith]
    decide
  record _ hr := by cases hr

end

/-- Settles O1: reset and the host's return to it leave one state, but for the parameters and the count of draws. -/
theorem initializeSetsEveryResetValue : Obligations.InitializeSetsEveryResetValue := by
  intro t ht
  obtain ⟨cfg, draws, rfl⟩ : ∃ cfg draws, t = State.resetWith cfg draws := by
    rcases ht with rfl | ⟨s, rfl⟩
    · exact ⟨Config.default, 0, rfl⟩
    · exact ⟨s.cfg, s.draws, rfl⟩
  refine ⟨fun a ha => ?font, fun a ha _ => ?zero, State.reg_resetWith cfg draws, rfl, rfl,
    State.stack_resetWith cfg draws, rfl, rfl, rfl, State.pixel_resetWith cfg draws, rfl,
    State.key_resetWith cfg draws, rfl⟩
  case font => exact (State.byteAt_resetWith cfg draws a).trans (Memory.unlisted_font ha)
  case zero => exact (State.byteAt_resetWith cfg draws a).trans (Memory.unlisted_zero cfg.font ha)

/-- Settles O48: the reset state meets the invariant under any parameters. -/
theorem resetStateMeetsTheInvariant : Obligations.ResetStateMeetsTheInvariant :=
  ⟨State.inv_resetWith Config.default 0, rfl, fun s => ⟨State.inv_resetWith s.cfg s.draws, rfl, rfl⟩⟩

/-! ### `set_key` and `clear_dirty` -/

theorem State.setKey_onlyChanges (s : State) (k : KeyIdx) (pressed : Bool) :
    s.OnlyChanges (s.setKey k pressed) [.key k] := by
  intro p hp
  cases p with
  | key l =>
    have hne : k ≠ l := fun h => hp (h ▸ List.mem_singleton_self _)
    exact (s.key_setKey k l pressed).trans (if_neg hne)
  | _ => rfl

theorem State.clearDirty_onlyChanges (s : State) : s.OnlyChanges s.clearDirty [.dirty] := by
  intro p hp
  cases p with
  | dirty => exact absurd (List.mem_singleton_self _) hp
  | _ => rfl

/-- Settles O3: a key reads back as it was set, and each of the two writes has a frame of one part. -/
theorem setKeyWritesOneKey : Obligations.SetKeyWritesOneKey :=
  ⟨fun s k pressed => ⟨(s.key_setKey k k pressed).trans (if_pos rfl), s.setKey_onlyChanges k pressed⟩,
    fun s => ⟨s.clearDirty_dirty, s.clearDirty_onlyChanges⟩⟩

/-! ### `load_program` -/

/-- The state with an image copied to 0x200 onward (R381). -/
def State.withImage (s : State) (bytes : List Byte) : State :=
  { s with mem := Memory.writeAll s.cfg.font s.mem programBase bytes }

section
variable {bytes : List Byte}

theorem State.loadProgram_of_fits (s : State) (h : bytes.length ≤ 3584) :
    s.loadProgram bytes = .ok (s.withImage bytes) :=
  if_neg (Nat.not_lt.2 h)

theorem State.loadProgram_of_too_large (s : State) (h : 3584 < bytes.length) :
    s.loadProgram bytes = .error (.imageTooLarge bytes.length) :=
  if_pos h

theorem State.hostApply_load_of_fits (s : State) (h : bytes.length ≤ 3584) :
    s.hostApply (.load bytes) = s.withImage bytes := by
  rw [State.hostApply, s.loadProgram_of_fits h]

theorem State.hostApply_load_of_too_large (s : State) (h : 3584 < bytes.length) : s.hostApply (.load bytes) = s := by
  rw [State.hostApply, s.loadProgram_of_too_large h]

end

/-- Settles O2, by the two sizes of an image: it is one run of consecutive bytes, or it is rejected before any write. -/
theorem loadProgramCopiesOrRejectsWhole : Obligations.LoadProgramCopiesOrRejectsWhole := by
  intro bytes s
  refine ⟨fun hfits => ?copies, fun hlarge => ?rejects⟩
  case copies =>
    exact ⟨s.withImage bytes, s.loadProgram_of_fits hfits, s.hostApply_load_of_fits hfits,
      fun k hk => s.byteAt_withBytes programBase hk, s.withBytes_unchangedOutside programBase bytes⟩
  case rejects => exact ⟨s.loadProgram_of_too_large hlarge, s.hostApply_load_of_too_large hlarge⟩

end Sys2Proof.Machine
end

section
/-! Runs of steps and host operations (R342, R348, R349): what every move keeps, every run keeps. -/

namespace Sys2Proof.Machine

/-! ### The invariant -/

/-- An image that fits lies inside the address space, so memory stays canonical. -/
theorem State.Inv.withImage {s : State} {bytes : List Byte} (h : s.Inv) (hfits : bytes.length ≤ 3584) :
    (s.withImage bytes).Inv where
  memory := Memory.wf_writeAll bytes (show 0x200 + bytes.length ≤ 0x1000 by omega) h.memory
  pcBound := h.pcBound
  stackBound := h.stackBound
  record := h.record

/-- No clause of the invariant reads the keypad or dirty. -/
theorem State.Inv.withKeysDirty {s : State} (h : s.Inv) (keys : Keypad) (dirty : Bool) :
    ({ s with keys := keys, dirty := dirty } : State).Inv :=
  ⟨h.memory, h.pcBound, h.stackBound, h.record⟩

theorem State.Inv.hostApply {s : State} (h : s.Inv) (op : HostOp) : (s.hostApply op).Inv := by
  cases op with
  | init => exact State.inv_resetWith s.cfg s.draws
  | load bytes =>
    rcases Nat.lt_or_ge 3584 bytes.length with hlarge | hfits
    · rwa [s.hostApply_load_of_too_large hlarge]
    · rw [s.hostApply_load_of_fits hfits]
      exact h.withImage hfits
  | setKey k pressed => exact h.withKeysDirty _ s.dirty
  | clearDirty => exact h.withKeysDirty s.keys false

theorem State.Inv.move {s : State} (h : s.Inv) (m : Move) : (s.move m).Inv := by
  cases m with
  | step => exact everyStepKeepsTheInvariant s _ h s.step_eq_move
  | host op => exact h.hostApply op

/-- Settles O50, by induction on the moves: a step keeps the invariant, and so does each host operation. -/
theorem everyRunKeepsTheInvariant : Obligations.EveryRunKeepsTheInvariant := fun moves _ hs =>
  List.foldlRecOn moves State.move hs fun _ ht m _ => ht.move m

/-! ### A halted machine -/

theorem State.unchangedOutside_refl (s : State) (written : Part → Prop) : s.UnchangedOutside s written :=
  (s.onlyChanges_refl []).unchangedOutside (List.forall_mem_nil written)

/-- What can change while the machine is halted: what the host writes short of a reset (R342, R348). -/
def hostWrites (p : Part) : Prop := (∃ a, p = .byte a) ∨ (∃ k, p = .key k) ∨ p = .dirty

theorem not_hostWrites_halted : ¬ hostWrites .halted := by
  simp [hostWrites]

theorem State.move_step_of_halted {s : State} {r : ErrorRecord} (h : s.halted = some r) : s.move .step = s := by
  simp [State.move, step_of_cycle (cycle_halted h)]

theorem State.hostApply_unchangedOutside (s : State) {op : HostOp} (h : op ≠ .init) :
    s.UnchangedOutside (s.hostApply op) hostWrites := by
  cases op with
  | init => exact absurd rfl h
  | load bytes =>
    rcases s.hostApply_load_cases bytes with hload | hload <;> rw [hload]
    · exact s.unchangedOutside_refl _
    · refine (s.withBytes_unchangedOutside programBase bytes).mono ?_
      rintro p ⟨k, -, hp⟩
      exact .inl ⟨_, hp⟩
  | setKey k pressed => exact (s.setKey_onlyChanges k pressed).unchangedOutside (by simp [hostWrites])
  | clearDirty => exact s.clearDirty_onlyChanges.unchangedOutside (by simp [hostWrites])

/-- A move of a halted machine that is not a reset changes at most what the host writes. -/
theorem State.move_unchangedOutside_of_halted {s : State} {r : ErrorRecord} {m : Move} (hs : s.halted = some r)
    (hm : m ≠ .host .init) : s.UnchangedOutside (s.move m) hostWrites := by
  cases m with
  | step =>
    rw [State.move_step_of_halted hs]
    exact s.unchangedOutside_refl _
  | host op => exact s.hostApply_unchangedOutside fun hop => hm (congrArg _ hop)

/-- Settles O52, by induction on the moves: each changes at most what the host writes, and the record, which the host does
not write, makes the next step do nothing. -/
theorem haltedUntilInitialize : Obligations.HaltedUntilInitialize := by
  intro moves s r hs hmoves
  have hkept : s.UnchangedOutside (s.run moves) hostWrites := by
    refine List.foldlRecOn (motive := (s.UnchangedOutside · hostWrites)) moves State.move ?start fun t ht m hm => ?move
    case start => exact s.unchangedOutside_refl _
    case move =>
      have htr : t.halted = some r := (ht .halted not_hostWrites_halted).trans hs
      have hnot : m ≠ .host .init := fun h => hmoves (h ▸ hm)
      exact (ht.trans (State.move_unchangedOutside_of_halted htr hnot)).mono fun _ hp => hp.elim id id
  exact ⟨(hkept .halted not_hostWrites_halted).trans hs, hkept⟩

end Sys2Proof.Machine
end

section
/-! Whole steps that set or only tick the timers (R352, R391, R392, R396). -/

namespace Sys2Proof.Machine

/-- A step whose instruction raises no error ends with the tick, and reports the tone exactly when the instruction left
ST at 1 (R136, R137). -/
theorem cycle_ticks {s u : State} {i : Instr} (hs : s.halted = none) (hf : s.Fetches (encode i))
    (hwf : i.wellFormed s.cfg.zeroHeightDraw = true) (he : exec i s = .next u) (hu : u.halted = none) :
    cycle s = .next (u.tick, .ok (decide (u.st = 1))) := by
  rw [cycle_of_fetches hs hf (decode_encode hwf) he, finish_ok hu, State.toneExpires_iff]

/-- The tick moves neither pc nor memory. -/
theorem State.Fetches.tick {s : State} {op : Opcode} (h : s.Fetches op) : s.tick.Fetches op := h

/-! ### Timer writes -/

/-- A step that fetches FX07 loads the value that DT had before its tick (R302). -/
theorem step_ldVxDt {s : State} {y : RegIdx} (hf : s.Fetches (encode (.ldVxDt y))) (hs : s.halted = none) :
    ∃ u, step s = .next u ∧ u.reg y = s.dt :=
  ⟨_, step_of_cycle (cycle_ticks hs hf rfl (exec_ldVxDt y s) hs), s.reg_setReg_same y s.dt⟩

theorem cycle_ldDtVx {s : State} {x : RegIdx} (hs : s.halted = none) (hf : s.Fetches (encode (.ldDtVx x))) :
    cycle s = .next ((({ s with dt := s.reg x } : State).advance 2).tick, .ok (decide (s.st = 1))) :=
  cycle_ticks hs hf rfl (exec_ldDtVx x s) hs

theorem cycle_ldStVx {s : State} {x : RegIdx} (hs : s.halted = none) (hf : s.Fetches (encode (.ldStVx x))) :
    cycle s = .next ((({ s with st := s.reg x } : State).advance 2).tick, .ok (decide (s.reg x = 1))) :=
  cycle_ticks hs hf rfl (exec_ldStVx x s) hs

/-- Settles O36: the tick that ends the step of FX15 or FX18 lowers the value which that instruction wrote. -/
theorem timerWritesAreTickedInTheSameStep : Obligations.TimerWritesAreTickedInTheSameStep := by
  intro x s hs
  refine ⟨fun hf => ?delay, fun hf => ?sound⟩
  case delay =>
    refine ⟨_, cycle_ldDtVx hs hf, tickTimer_toNat (s.reg x), ?frame, fun y hy => ?load⟩
    case frame =>
      exact (((s.withDt_onlyChanges _).trans (State.advance_onlyChanges _ 2)).trans
        (State.tick_onlyChanges _)).mono (by simp)
    case load =>
      obtain ⟨u, hu, hreg⟩ := step_ldVxDt hy hs
      exact ⟨u, hu, (congrArg BitVec.toNat hreg).trans (tickTimer_toNat (s.reg x))⟩
  case sound =>
    refine ⟨_, cycle_ldStVx hs hf, tickTimer_toNat (s.reg x), ?frame⟩
    case frame =>
      exact (((s.withSt_onlyChanges _).trans (State.advance_onlyChanges _ 2)).trans
        (State.tick_onlyChanges _)).mono (by simp)

/-! ### Steps that only tick -/

/-- Settles O39: with no key pressed FX0A leaves the state as it was, so its step is the tick alone. -/
theorem blockedKeyWaitOnlyTicks : Obligations.BlockedKeyWaitOnlyTicks := by
  intro x s hs hf hnone
  have hblocked : exec (.ldVxK x) s = .next s := by rw [exec_ldVxK, keyWaitWith_of_no_key _ x hnone]
  exact ⟨s.tick, cycle_ticks hs hf rfl hblocked hs, tickTimer_toNat s.dt, tickTimer_toNat s.st, s.tick_onlyChanges,
    hf.tick⟩

/-- A jump to its own address leaves the state as it was (R161, R396). -/
theorem exec_jp_self {nnn : BitVec 12} {s : State} (h : nnn.toNat = s.pc.toNat) : exec (.jp nnn) s = .next s := by
  have htarget : literalAddr nnn = s.pc := BitVec.eq_of_toNat_eq ((literalAddr_toNat nnn).trans h)
  rw [exec_jp, htarget]
  rfl

/-- Settles O47: the jump leaves the state as it was, so its step is the tick alone, and the next fetch is the same. -/
theorem selfJumpKeepsTicking : Obligations.SelfJumpKeepsTicking := by
  intro nnn s hs hf hself
  exact ⟨s.tick, cycle_ticks hs hf rfl (exec_jp_self hself) hs, tickTimer_toNat s.dt, tickTimer_toNat s.st,
    s.tick_onlyChanges, .inr ⟨nnn, hf.tick, hself⟩⟩

end Sys2Proof.Machine
end
